-- ==== Sys2Proof/Word.lean ====
section
/-! DEFINITION. The byte, the text (a sequence of bytes) and the ASCII text of a string. -/

namespace Sys2Proof

/-- One unsigned 8-bit value: a register, a memory cell, a resolved operand (rule R3, `XLEN = 8`), or
one byte of program text or of a log line. -/
abbrev Byte := BitVec 8

/-- A sequence of bytes: the program text, a line, an operand text, a log line (rule R33). -/
abbrev Text := List Byte

/-- The ASCII code of a character (00_scope.md section 4). -/
def charByte (c : Char) : Byte := BitVec.ofNat 8 c.toNat

/-- The bytes of a sequence of ASCII characters, position 0 first. -/
def ascii (cs : List Char) : Text := cs.map charByte

/-- The bytes of an ASCII string; statements and tests quote texts with it. -/
def ofString (s : String) : Text := ascii s.toList

end Sys2Proof
end

