-- ==== Sys2Proof/Config.lean ====
section
/-! DEFINITION. The parameters of the hardware: those the source fixes (rule R3), and the reset contents,
which rule R4 leaves open with a default. The texts the source leaves open (`DIAG`, `ERRMSG`) and the
whitespace set (`WS`) stand beside the operations that use them (Machine/Flags.lean, Machine/Ops.lean,
Decode.lean). The sizes rule R4 leaves open (`PROG_LINES`, `LINE_LEN`, `PC_WIDTH`, `MAX_DEPTH`,
`LIT_DIGITS`, `LOG_CAP`) are unbounded and so have no constant: assumption 5. -/

namespace Sys2Proof

/-- Number of memory cells (rule R3, `MEMSIZE`). -/
def Config.memSize : Nat := 256

/-- Register contents after power-on (rules R4, R17, `RESET_R`). DESIGN CHOICE of the spec (D30), taken by
the model: assumption 1. Unsafe for a machine with other contents. -/
def Config.resetReg : Byte := 0#8

/-- Memory contents after power-on (rules R4, R17, `RESET_M`): what an unlisted address reads as.
DESIGN CHOICE of the spec (D30), taken by the model: assumption 1. Unsafe for a machine with other
contents. -/
def Config.resetMem : Byte := 0#8

end Sys2Proof
end

