-- ==== Sys2Proof/Syntax.lean ====
section
/-! DEFINITION. Syntax: the twelve instructions and their operands, as the decoder hands them to the
execute stage (rule R53). The instruction is a line of text, and its log lines quote operand texts, so
the syntax keeps every operand's text: literals keep their digits, conditions keep their whitespace. A
text that fits no operand form, and a line whose separator is missing, are kept too: the errors they
raise are part of the instruction's own rule (rules R38, R47, R95), in the order of rule R97. -/

namespace Sys2Proof

/-- The twelve opcodes, in the order of the source's dispatch table (rule R39). `ifc` is `IF`. -/
inductive Opcode where
  | ver | init | mov | qmov | add | sub | mul | div | out | ifc | clr | halt
  deriving DecidableEq, Repr

/-- A literal with at least one digit (rules R41, R42, R45). The digits are kept as written, leading
zeros and letter case included, because log lines quote them. A hexadecimal digit below 16 is `0`-`9` and
`a`-`f`; 16 to 21 are the upper-case spellings `A`-`F`. -/
inductive Literal where
  | bin (d : Fin 2) (ds : List (Fin 2))
  | hex (d : Fin 22) (ds : List (Fin 22))
  | dec (d : Fin 10) (ds : List (Fin 10))
  deriving DecidableEq, Repr

/-- An operand text, classified (rule R40). `badReg` and `bad` hold the texts that raise Invalid Register
(rule R43) and Malformed Operand (rules R41, R42, R45) when they are resolved. -/
inductive Operand where
  | lit (l : Literal)
  | reg (i : Fin 8)
  | mem (inner : Operand)
  | badReg (text : Text)
  | bad (text : Text)
  deriving DecidableEq, Repr

/-- The six comparison operators `==`, `!=`, `>`, `<`, `>=`, `<=` (rule R53's order). -/
inductive CmpOp where
  | eq | ne | gt | lt | ge | le
  deriving DecidableEq, Repr

/-- The whitespace characters `WS` (rule R34): space, tab, carriage return, 0x0B, 0x0C. -/
inductive Ws where
  | space | tab | cr | vt | ff
  deriving DecidableEq, Repr

/-- Format `V` (rule R38): `= v`, or a rest that does not begin with `=`. -/
inductive ValueForm where
  | eq (v : Operand)
  | noEq (rest : Text)
  deriving DecidableEq, Repr

/-- Formats `I` and `D2` (rule R38): two operands, or a rest without the separator. -/
inductive PairForm where
  | pair (d s : Operand)
  | noSep (rest : Text)
  deriving DecidableEq, Repr

/-- Format `C` (rules R38, R73): a condition cut at its operator, with the whitespace before and after the
operator as written (the diagnostic quotes it), or a condition text without an operator. -/
inductive CondForm where
  | cmp (l : Operand) (pre : List Ws) (op : CmpOp) (post : List Ws) (r : Operand)
  | noOp (text : Text)
  deriving DecidableEq, Repr

/-- The instructions, one constructor per row of the opcode table. -/
inductive Instr where
  | ver (f : ValueForm)
  | init (f : PairForm)
  | mov (f : PairForm)
  | qmov (f : PairForm)
  | add (f : PairForm)
  | sub (f : PairForm)
  | mul (f : PairForm)
  | div (f : PairForm)
  | out (x : Operand)
  | ifc (f : CondForm)
  | clr (x : Operand)
  | halt (x : Operand)
  deriving DecidableEq, Repr

/-- The opcode of an instruction. -/
def Instr.opcode : Instr → Opcode
  | .ver _ => .ver
  | .init _ => .init
  | .mov _ => .mov
  | .qmov _ => .qmov
  | .add _ => .add
  | .sub _ => .sub
  | .mul _ => .mul
  | .div _ => .div
  | .out _ => .out
  | .ifc _ => .ifc
  | .clr _ => .clr
  | .halt _ => .halt

end Sys2Proof
end

