-- ==== Sys2Proof/WellFormed.lean ====
section
/-! DEFINITION. Well-formed instructions: those rule R53 decodes to a record, which raise no error that
depends on the text alone. An ill-formed instruction is still an instruction of the model: its meaning
takes the error the spec names. -/

namespace Sys2Proof

/-- The operand fits one of the five operand forms at every bracket level (rules R40 to R45). -/
def Operand.wf : Operand → Bool
  | .lit _ => true
  | .reg _ => true
  | .mem inner => inner.wf
  | .badReg _ => false
  | .bad _ => false

/-- The operand is of a form that names a location, a register or a memory reference (rule R48). -/
def Operand.locatable : Operand → Bool
  | .lit _ => false
  | .reg _ => true
  | .mem _ => true
  | .badReg _ => false
  | .bad _ => false

/-- A written operand: well-formed, and not a literal (rule R48). -/
def Operand.wfDest (d : Operand) : Bool := d.wf && d.locatable

/-- Format `V`: the `=` is there and the value is an operand. -/
def ValueForm.wf : ValueForm → Bool
  | .eq v => v.wf
  | .noEq _ => false

/-- Formats `I` and `D2`: the separator is there, the destination names a location, the source is an
operand. -/
def PairForm.wf : PairForm → Bool
  | .pair d s => d.wfDest && s.wf
  | .noSep _ => false

/-- `QMOV`'s pair: both operands name a location (rule R58). -/
def PairForm.wfLocs : PairForm → Bool
  | .pair d s => d.wfDest && s.wfDest
  | .noSep _ => false

/-- Format `C`: an operator is there and both sides are operands. -/
def CondForm.wf : CondForm → Bool
  | .cmp l _ _ _ r => l.wf && r.wf
  | .noOp _ => false

/-- The instruction raises no error that its text alone decides (rule R53). -/
def Instr.wf : Instr → Bool
  | .ver f => f.wf
  | .init f => f.wf
  | .mov f => f.wf
  | .qmov f => f.wfLocs
  | .add f => f.wf
  | .sub f => f.wf
  | .mul f => f.wf
  | .div f => f.wf
  | .out x => x.wf
  | .ifc f => f.wf
  | .clr x => x.wfDest
  | .halt x => x.wf

end Sys2Proof
end

