-- ==== Sys2Proof/Decode.lean ====
section
/-! DEFINITION. Decode: from program text to lines (rules R33 to R36), from a line to an instruction
(rules R37 to R45, R73), the rejections by name (rules R49, R50), and the encoder, which writes an
instruction as the line it stands for. -/

namespace Sys2Proof

/-! ### Characters and lines -/

/-- The byte of a whitespace character (rule R34). -/
def Ws.byte : Ws → Byte
  | .space => 0x20#8
  | .tab => 0x09#8
  | .cr => 0x0D#8
  | .vt => 0x0B#8
  | .ff => 0x0C#8

/-- The whitespace character a byte is, if it is one (rule R34). DESIGN CHOICE of the spec (open parameter
`WS`, D3), taken by the model: assumption 2. -/
def Ws.ofByte? (b : Byte) : Option Ws :=
  if b = 0x20#8 then some .space
  else if b = 0x09#8 then some .tab
  else if b = 0x0D#8 then some .cr
  else if b = 0x0B#8 then some .vt
  else if b = 0x0C#8 then some .ff
  else none

/-- The byte is in `WS`. -/
def isWs (b : Byte) : Bool := (Ws.ofByte? b).isSome

/-- Remove leading whitespace. -/
def trimLeft (t : Text) : Text := t.dropWhile isWs

/-- Remove trailing whitespace. -/
def trimRight (t : Text) : Text := (t.reverse.dropWhile isWs).reverse

/-- `trim(s)` (rule R36). -/
def trim (t : Text) : Text := trimRight (trimLeft t)

/-- `strip_comment(s)`: the line up to its first `;` (rule R35). -/
def stripComment (t : Text) : Text := t.takeWhile (· != 0x3B#8)

/-- The two leading characters are spaces (rule R34); a tab does not indent. -/
def indented : Text → Bool
  | a :: b :: _ => a == 0x20#8 && b == 0x20#8
  | _ => false

/-- The lines of a program text, cut at every line feed (rule R33). -/
def splitLines : Text → List Text
  | [] => [[]]
  | b :: bs =>
    if b = 0x0A#8 then [] :: splitLines bs
    else match splitLines bs with
      | [] => [[b]]
      | l :: ls => (b :: l) :: ls

/-- The first token of a trimmed line (rule R37). -/
def token0 (t : Text) : Text := t.takeWhile (fun b => !isWs b)

/-- What follows the first token, trimmed (rule R37). -/
def restOf (t : Text) : Text := trim (t.dropWhile (fun b => !isWs b))

/-- The text before and after the first occurrence of `p` (`find` of 00_scope.md section 4). -/
def cutAt (p : Text) : Text → Option (Text × Text)
  | [] => none
  | b :: bs =>
    if p.isPrefixOf (b :: bs) then some ([], (b :: bs).drop p.length)
    else match cutAt p bs with
      | none => none
      | some (before, after) => some (b :: before, after)

/-! ### Operands -/

/-- A binary digit (rule R41). -/
def binDigit? (b : Byte) : Option (Fin 2) :=
  if b = 0x30#8 then some 0 else if b = 0x31#8 then some 1 else none

/-- A decimal digit (rule R45). -/
def decDigit? (b : Byte) : Option (Fin 10) :=
  if h : 0x30 ≤ b.toNat ∧ b.toNat ≤ 0x39 then some ⟨b.toNat - 0x30, by omega⟩ else none

/-- A hexadecimal digit of either case (rule R42). -/
def hexDigit? (b : Byte) : Option (Fin 22) :=
  if h : 0x30 ≤ b.toNat ∧ b.toNat ≤ 0x39 then some ⟨b.toNat - 0x30, by omega⟩
  else if h : 0x61 ≤ b.toNat ∧ b.toNat ≤ 0x66 then some ⟨b.toNat - 0x61 + 10, by omega⟩
  else if h : 0x41 ≤ b.toNat ∧ b.toNat ≤ 0x46 then some ⟨b.toNat - 0x41 + 16, by omega⟩
  else none

/-- Every byte of the text read as a digit, or nothing if one is none. -/
def digits? {α : Type} (f : Byte → Option α) : Text → Option (List α)
  | [] => some []
  | b :: bs =>
    match f b, digits? f bs with
    | some d, some ds => some (d :: ds)
    | _, _ => none

/-- The digits after `0b` (rule R41). -/
def binLiteral? (t : Text) : Option Literal :=
  match digits? binDigit? t with
  | some (d :: ds) => some (.bin d ds)
  | _ => none

/-- The digits after `0x` (rule R42). -/
def hexLiteral? (t : Text) : Option Literal :=
  match digits? hexDigit? t with
  | some (d :: ds) => some (.hex d ds)
  | _ => none

/-- A decimal literal: no sign, no other character (rule R45). -/
def decLiteral? (t : Text) : Option Literal :=
  match digits? decDigit? t with
  | some (d :: ds) => some (.dec d ds)
  | _ => none

/-- A literal operand, or the malformed text it would have been. -/
def literalOr (text : Text) : Option Literal → Operand
  | some l => .lit l
  | none => .bad text

/-- The register index after `R`: exactly one digit `0` to `7` (rule R43). -/
def regIndex? : Text → Option (Fin 8)
  | [b] => if h : 0x30 ≤ b.toNat ∧ b.toNat ≤ 0x37 then some ⟨b.toNat - 0x30, by omega⟩ else none
  | _ => none

/-- The inner text of a bracketed text of length at least 2, as it stands (rules R40, R44). -/
def bracketed? : Text → Option Text
  | b :: c :: cs =>
    if b = 0x5B#8 ∧ (c :: cs).getLast? = some 0x5D#8 then some (c :: cs).dropLast else none
  | _ => none

/-- Classification of an operand text in the order of rule R40. The first argument bounds the bracket
depth; the length of the text is always enough. -/
def parseOperandAux : Nat → Text → Operand
  | n, t =>
    if (ascii ['0', 'b']).isPrefixOf t then literalOr t (binLiteral? (t.drop 2))
    else if (ascii ['0', 'x']).isPrefixOf t then literalOr t (hexLiteral? (t.drop 2))
    else if t.head? = some 0x52#8 then
      match regIndex? t.tail with
      | some i => .reg i
      | none => .badReg t
    else match n, bracketed? t with
      | m + 1, some inner => .mem (parseOperandAux m inner)
      | _, _ => literalOr t (decLiteral? t)

/-- The operand a text is (rules R40 to R45); every text is one, well-formed or not. -/
def parseOperand (t : Text) : Operand := parseOperandAux t.length t

/-! ### Formats -/

/-- Format `V` (rule R38): the rest begins with `=`. -/
def parseValueForm : Text → ValueForm
  | [] => .noEq []
  | b :: bs => if b = 0x3D#8 then .eq (parseOperand (trim bs)) else .noEq (b :: bs)

/-- Formats `I` and `D2` (rule R38): the rest is cut at the first separator, both sides trimmed. -/
def parsePairForm (sep : Byte) (t : Text) : PairForm :=
  match cutAt [sep] t with
  | none => .noSep t
  | some (d, s) => .pair (parseOperand (trim d)) (parseOperand (trim s))

/-- The text of a comparison operator (rule R73). -/
def CmpOp.text : CmpOp → Text
  | .eq => ascii ['=', '=']
  | .ne => ascii ['!', '=']
  | .gt => ascii ['>']
  | .lt => ascii ['<']
  | .ge => ascii ['>', '=']
  | .le => ascii ['<', '=']

/-- The order in which the operators are looked for (rule R73; 90_conflicts.md C2). -/
def CmpOp.searchOrder : List CmpOp := [.eq, .ne, .ge, .le, .gt, .lt]

/-- The first operator of a list that occurs in the text, with what stands before and after its first
occurrence. -/
def cutAtFirst (t : Text) : List CmpOp → Option (Text × CmpOp × Text)
  | [] => none
  | op :: ops =>
    match cutAt op.text t with
    | some (l, r) => some (l, op, r)
    | none => cutAtFirst t ops

/-- `parseCondition(c)`: the left text, the operator and the right text, or Invalid Condition (rule R73). -/
def parseCondition (c : Text) : Option (Text × CmpOp × Text) :=
  match cutAtFirst c CmpOp.searchOrder with
  | none => none
  | some (l, op, r) => some (trim l, op, trim r)

/-- The whitespace characters of a text. -/
def wsOf (t : Text) : List Ws := t.filterMap Ws.ofByte?

/-- Format `C`: the condition text cut by `parseCondition`, with the whitespace around the operator kept
for the diagnostic. -/
def parseCondForm (c : Text) : CondForm :=
  match cutAtFirst c CmpOp.searchOrder with
  | none => .noOp c
  | some (l, op, r) =>
    .cmp (parseOperand (trim l)) (wsOf (l.reverse.takeWhile isWs).reverse) op
      (wsOf (r.takeWhile isWs)) (parseOperand (trim r))

/-! ### Instructions -/

/-- The bytes of token 0 (rule R39's table; the `match` column of the opcode table). -/
def Opcode.mnemonic : Opcode → Text
  | .ver => [0x56#8, 0x45#8, 0x52#8]
  | .init => [0x49#8, 0x4E#8, 0x49#8, 0x54#8]
  | .mov => [0x4D#8, 0x4F#8, 0x56#8]
  | .qmov => [0x51#8, 0x4D#8, 0x4F#8, 0x56#8]
  | .add => [0x41#8, 0x44#8, 0x44#8]
  | .sub => [0x53#8, 0x55#8, 0x42#8]
  | .mul => [0x4D#8, 0x55#8, 0x4C#8]
  | .div => [0x44#8, 0x49#8, 0x56#8]
  | .out => [0x4F#8, 0x55#8, 0x54#8]
  | .ifc => [0x49#8, 0x46#8]
  | .clr => [0x43#8, 0x4C#8, 0x52#8]
  | .halt => [0x48#8, 0x41#8, 0x4C#8, 0x54#8]

/-- The opcodes in the order of their codes (rules R39, R53). -/
def Opcode.all : List Opcode :=
  [.ver, .init, .mov, .qmov, .add, .sub, .mul, .div, .out, .ifc, .clr, .halt]

/-- The numeric code of an opcode (rules R39, R53); nothing outside the machine sees it. -/
def Opcode.code : Opcode → Fin 12
  | .ver => 0
  | .init => 1
  | .mov => 2
  | .qmov => 3
  | .add => 4
  | .sub => 5
  | .mul => 6
  | .div => 7
  | .out => 8
  | .ifc => 9
  | .clr => 10
  | .halt => 11

/-- The numeric code of a comparison operator (rule R53). -/
def CmpOp.code : CmpOp → Fin 6
  | .eq => 0
  | .ne => 1
  | .gt => 2
  | .lt => 3
  | .ge => 4
  | .le => 5

/-- The opcode a first token selects, whole and case-sensitively (rules R37, R39). -/
def Opcode.ofToken? (tok : Text) : Option Opcode := Opcode.all.find? (fun o => o.mnemonic == tok)

/-- The instruction of an opcode with its operand texts cut by the opcode's format (rule R38). -/
def Opcode.build (rest : Text) : Opcode → Instr
  | .ver => .ver (parseValueForm rest)
  | .init => .init (parsePairForm 0x3D#8 rest)
  | .mov => .mov (parsePairForm 0x2C#8 rest)
  | .qmov => .qmov (parsePairForm 0x2C#8 rest)
  | .add => .add (parsePairForm 0x2C#8 rest)
  | .sub => .sub (parsePairForm 0x2C#8 rest)
  | .mul => .mul (parsePairForm 0x2C#8 rest)
  | .div => .div (parsePairForm 0x2C#8 rest)
  | .out => .out (parseOperand rest)
  | .ifc => .ifc (parseCondForm rest)
  | .clr => .clr (parseOperand rest)
  | .halt => .halt (parseOperand rest)

/-- What a trimmed line decodes to: the empty instruction (rule R50), an unknown first token (rule R49), or
an instruction. -/
inductive Decoded where
  | empty
  | unknown (token : Text)
  | instr (i : Instr)
  deriving DecidableEq, Repr

/-- Decode a comment-stripped, trimmed line (rules R37, R49, R50). It reads no machine state (rule R53). -/
def decodeLine (t : Text) : Decoded :=
  if t = [] then .empty
  else match Opcode.ofToken? (token0 t) with
    | none => .unknown (token0 t)
    | some o => .instr (o.build (restOf t))

/-- The instruction text of a line as it stands in the program (rules R35, R36). -/
def lineText (line : Text) : Text := trim (stripComment line)

/-- Decode a line as it stands in the program. -/
def decodeRaw (line : Text) : Decoded := decodeLine (lineText line)

/-! ### The encoder -/

/-- The character of a binary digit. -/
def binChar (d : Fin 2) : Byte := BitVec.ofNat 8 (0x30 + d.val)

/-- The character of a decimal digit. -/
def decChar (d : Fin 10) : Byte := BitVec.ofNat 8 (0x30 + d.val)

/-- The character of a hexadecimal digit, in the case it was written in. -/
def hexChar (d : Fin 22) : Byte :=
  if d.val < 10 then BitVec.ofNat 8 (0x30 + d.val)
  else if d.val < 16 then BitVec.ofNat 8 (0x61 + (d.val - 10))
  else BitVec.ofNat 8 (0x41 + (d.val - 16))

/-- The text of a literal, as written. -/
def literalText : Literal → Text
  | .bin d ds => ascii ['0', 'b'] ++ (d :: ds).map binChar
  | .hex d ds => ascii ['0', 'x'] ++ (d :: ds).map hexChar
  | .dec d ds => (d :: ds).map decChar

/-- The operand text as written (the `text` field of rule R53). -/
def operandText : Operand → Text
  | .lit l => literalText l
  | .reg i => [0x52#8, BitVec.ofNat 8 (0x30 + i.val)]
  | .mem inner => 0x5B#8 :: (operandText inner ++ [0x5D#8])
  | .badReg t => t
  | .bad t => t

/-- The text of a format `V` rest. -/
def ValueForm.text : ValueForm → Text
  | .eq v => ascii ['=', ' '] ++ operandText v
  | .noEq rest => rest

/-- The text of a format `I` or `D2` rest, with the given separator text. -/
def PairForm.text (sep : Text) : PairForm → Text
  | .pair d s => operandText d ++ sep ++ operandText s
  | .noSep rest => rest

/-- The condition text as written (the `cond` field of rule R53). -/
def CondForm.text : CondForm → Text
  | .cmp l pre op post r =>
    operandText l ++ pre.map Ws.byte ++ op.text ++ post.map Ws.byte ++ operandText r
  | .noOp t => t

/-- The operand part of the line an instruction stands for. -/
def Instr.restText : Instr → Text
  | .ver f => f.text
  | .init f => f.text (ascii [' ', '=', ' '])
  | .mov f => f.text (ascii [',', ' '])
  | .qmov f => f.text (ascii [',', ' '])
  | .add f => f.text (ascii [',', ' '])
  | .sub f => f.text (ascii [',', ' '])
  | .mul f => f.text (ascii [',', ' '])
  | .div f => f.text (ascii [',', ' '])
  | .out x => operandText x
  | .ifc f => f.text
  | .clr x => operandText x
  | .halt x => operandText x

/-- The line an instruction stands for: mnemonic, one space, operands with the spacing of the source's
examples (rules R38, R54). -/
def encode (i : Instr) : Text := i.opcode.mnemonic ++ 0x20#8 :: i.restText

/-! ### Words of the opcode table -/

/-- `n` bytes of a word, the byte of bits 7 to 0 first. -/
def bytesOfWord : Nat → Nat → Text
  | 0, _ => []
  | n + 1, w => BitVec.ofNat 8 w :: bytesOfWord n (w / 256)

/-- The bytes of an instruction given as `nbits` bits, its first character lowest. The line ends after
them: an instruction is as long as its line (rule R55), so no zero bytes follow. -/
def tableWordText (nbits w : Nat) : Text := bytesOfWord ((nbits + 7) / 8) w

/-- The instruction the decoder reads from the line whose bytes are the word's. -/
def decodeTableWord (nbits w : Nat) : Option Instr :=
  match splitLines (tableWordText nbits w) with
  | [] => none
  | line :: _ =>
    match decodeRaw line with
    | .empty => none
    | .unknown _ => none
    | .instr i => some i

end Sys2Proof
end

