-- ==== Sys2Proof/Machine/State.lean ====
section
/-! DEFINITION. The state of the byte machine (10_state.md), the reasons a step stops, the machine's own
error kinds (rule R88), and the state after power-on reset (rules R17, R102). -/

namespace Sys2Proof.Machine

/-- The values of the branch-select latch `B` (rule R11). -/
inductive BranchSel where
  | takeIf
  | takeElse
  | takeNone
  deriving DecidableEq, Repr

/-- Why a step gives no next state. Both are the normal ends of a run (rule R104), where "no step is
enabled"; no instruction raises either, and no error of the machine is one (rule R95). -/
inductive Fault where
  /-- Raised by `step` when the halt latch `H` is set (rules R84, R104). Safe: the machine executes no
  further line. -/
  | halted
  /-- Raised by `step` when `pc` has reached the number of lines (rules R10, R104). Safe: there is no line
  to execute. -/
  | endOfProgram
  deriving DecidableEq, Repr

/-- Why the model gives an instruction no meaning. -/
inductive Refusal where
  /-- Raised by an arm of `exec` that has no meaning yet; no arm raises it. Safe. -/
  | notModelled (mnemonic : String)
  deriving DecidableEq, Repr

/-- The six error kinds of the machine with the text each records (rule R88). An error is an event of the
run, not a stop: `takeError` (Machine/Ops.lean) gives the next state. `invalidOperator` is raised by no
program (rule R93). -/
inductive MachineError where
  | invalidRegister (text : Text)
  | malformedOperand (text : Text)
  | invalidCondition (text : Text)
  | invalidOperator (text : Text)
  | unknownInstruction (token : Text)
  | divisionByZero
  deriving DecidableEq, Repr

/-- Everything the spec gives the machine (rules R5 to R13, R15). -/
structure State where
  /-- `R0` to `R7` (rule R5). -/
  regs : Vector Byte 8
  /-- `M` (rule R7): the cells whose content is not `Config.resetMem`, by rising address. -/
  mem : List Host.Cell
  /-- `V`, the verbosity flag (rule R8). -/
  verbose : Bool
  /-- `H`, the halt latch (rule R9). -/
  halted : Bool
  /-- `pc`, the index of the line the sequencer is at (rule R10). -/
  pc : Nat
  /-- `B`, the branch-select latch (rule R11). -/
  branch : BranchSel
  /-- `LOG`, oldest line first (rule R12). -/
  log : List Text
  /-- `PROG`, the program text (rule R13); no step writes it. -/
  prog : Text
  deriving DecidableEq, Repr

/-- The machine after power-on reset (rules R17, R102). Registers and memory are 0 by the default of the
open parameters `RESET_R` and `RESET_M`: DESIGN CHOICE, assumption 1, unsafe. -/
def State.reset : State where
  regs := Vector.replicate 8 Config.resetReg
  mem := []
  verbose := false
  halted := false
  pc := 0
  branch := .takeNone
  log := []
  prog := []

end Sys2Proof.Machine
end

