-- ==== Sys2Proof/Machine/Ops.lean ====
section
/-! DEFINITION. The named operations over registers, memory and the log, and taking an error (rule R95),
which is this machine's exception entry and return in one. -/

namespace Sys2Proof.Machine

/-! ### Outcomes -/

/-- What a step or a meaning answers. -/
abbrev Outcome := Host.Outcome State Fault Refusal

/-- Apply a function to the next state, if there is one. -/
def mapNext (f : State → State) : Outcome → Outcome
  | .next s => .next (f s)
  | .fault r => .fault r
  | .refused r => .refused r

/-- Go on from the next state, if there is one. -/
def andThen (o : Outcome) (k : State → Outcome) : Outcome :=
  match o with
  | .next s => k s
  | .fault r => .fault r
  | .refused r => .refused r

/-! ### Registers -/

/-- `x[i]` (rule R5). -/
def State.readReg (s : State) (i : Fin 8) : Byte := s.regs[i.val]

/-- `x[i] <- v` (rule R5); `R0` is an ordinary register. -/
def State.writeReg (s : State) (i : Fin 8) (v : Byte) : State :=
  { s with regs := s.regs.set i.val v }

/-! ### Memory -/

/-- The content of the cell at an address; an unlisted cell holds its reset content. -/
def Memory.read (m : List Host.Cell) (a : Nat) : Byte :=
  match m.find? (fun c => c.1 == a) with
  | some c => c.2
  | none => Config.resetMem

/-- Insert a cell before the first cell of a higher address. -/
def Memory.insert (c : Host.Cell) : List Host.Cell → List Host.Cell
  | [] => [c]
  | d :: ds => if c.1 < d.1 then c :: d :: ds else d :: Memory.insert c ds

/-- Write one cell: its old entry goes, and the new one is listed unless it is what an unlisted cell
holds. -/
def Memory.write (m : List Host.Cell) (a : Nat) (v : Byte) : List Host.Cell :=
  let others := m.filter (fun c => c.1 != a)
  if v = Config.resetMem then others else Memory.insert (a, v) others

/-- The canonical form: every listed address is a cell address, no listed content is the reset content, and
addresses strictly rise. -/
def Memory.wf : List Host.Cell → Bool
  | [] => true
  | c :: cs => decide (c.1 < Config.memSize) && c.2 != Config.resetMem &&
      cs.all (fun d => decide (c.1 < d.1)) && Memory.wf cs

/-- `MemRead(a, 1)` (rule R19). -/
def State.memRead (s : State) (a : Byte) : Byte := Memory.read s.mem a.toNat

/-- `MemWrite(a, 1, v)` (rule R20). -/
def State.memWrite (s : State) (a v : Byte) : State :=
  { s with mem := Memory.write s.mem a.toNat v }

/-! ### The log -/

/-- `emit(s)`: append one line to `LOG` (rule R12). -/
def State.emit (s : State) (line : Text) : State := { s with log := s.log ++ [line] }

/-! ### Errors -/

/-- The numeric code of an error kind (rule R88); nothing in the machine holds it. -/
def MachineError.code : MachineError → Nat
  | .invalidRegister _ => 1
  | .malformedOperand _ => 2
  | .invalidCondition _ => 3
  | .invalidOperator _ => 4
  | .unknownInstruction _ => 5
  | .divisionByZero => 6

/-- The message of an error (rule R101). The source fixes only Unknown Instruction; the others are the
spec's defaults of the open parameter `ERRMSG` (D19). DESIGN CHOICE, assumption 4. -/
def MachineError.message : MachineError → Text
  | .invalidRegister t =>
    ascii ['I', 'n', 'v', 'a', 'l', 'i', 'd', ' ', 'r', 'e', 'g', 'i', 's', 't', 'e', 'r', ':', ' '] ++ t
  | .malformedOperand t =>
    ascii ['M', 'a', 'l', 'f', 'o', 'r', 'm', 'e', 'd', ' ', 'o', 'p', 'e', 'r', 'a', 'n', 'd', ':', ' '] ++ t
  | .invalidCondition t =>
    ascii ['I', 'n', 'v', 'a', 'l', 'i', 'd', ' ', 'c', 'o', 'n', 'd', 'i', 't', 'i', 'o', 'n', ':', ' '] ++ t
  | .invalidOperator t =>
    ascii ['I', 'n', 'v', 'a', 'l', 'i', 'd', ' ', 'o', 'p', 'e', 'r', 'a', 't', 'o', 'r', ':', ' '] ++ t
  | .unknownInstruction t =>
    ascii ['U', 'n', 'k', 'n', 'o', 'w', 'n', ' ', 'i', 'n', 's', 't', 'r', 'u', 'c', 't', 'i', 'o', 'n',
      ':', ' '] ++ t
  | .divisionByZero => ascii ['D', 'i', 'v', 'i', 's', 'i', 'o', 'n', ' ', 'b', 'y', ' ', 'z', 'e', 'r', 'o']

/-- The error line (rules R95, R101). -/
def MachineError.line (e : MachineError) : Text := ascii ['E', 'r', 'r', 'o', 'r', ':', ' '] ++ e.message

/-- Error entry (rule R95): one error line, whatever `V` is, and nothing else. Nothing is saved, no mode or
mask changes, and control goes nowhere. -/
def takeError (e : MachineError) (s : State) : State := s.emit e.line

/-- What follows a line that has been dealt with, after an error as after a success (rules R10, R95, R99):
there is no other return from an error. -/
def advance (s : State) : State := { s with pc := s.pc + 1 }

/-- Run an instruction's rule from a state (rule R95): a rule that raises an error has changed nothing, and
the error is taken from the state before the instruction. -/
def attempt (s : State) : Except MachineError State → Outcome
  | .ok t => .next t
  | .error e => .next (takeError e s)

end Sys2Proof.Machine
end

