-- ==== Sys2Proof/Machine/Flags.lean ====
section
/-! DEFINITION. The flag-like state `V`, `H` and `B` (rules R8, R9, R11; there are no status flags, rule
R14), and the log lines `V` gates with their texts (rules R70, R71). -/

namespace Sys2Proof.Machine

/-- `V <- b` (rule R8). -/
def State.setVerbose (s : State) (b : Bool) : State := { s with verbose := b }

/-- `H <- 1` (rule R9); only run start and reset clear it. -/
def State.setHalted (s : State) : State := { s with halted := true }

/-- `B <- b` (rule R11). -/
def State.setBranch (s : State) (b : BranchSel) : State := { s with branch := b }

/-- `diag(s)`: append the line when `V` is set (rule R71). -/
def State.diag (s : State) (line : Text) : State := if s.verbose then s.emit line else s

/-- The character of one bit. -/
def bitChar (b : Bool) : Byte := if b then 0x31#8 else 0x30#8

/-- `bin8(v)`: eight characters, most significant bit first (rule R70). -/
def bin8 (v : Byte) : Text := (List.range 8).map (fun k => bitChar (v.getLsbD (7 - k)))

/-! The texts below, but for `outLine`, are the spec's defaults of the open parameter `DIAG` (rule R71,
D18). DESIGN CHOICE, assumption 3. -/

/-- `MNEMONIC: d = bin8(v)` (rule R71: `INIT`, `MOV`, `QMOV`, `ADD`, `SUB`, `MUL`, `DIV`). -/
def resultLine (mnemonic dest : Text) (v : Byte) : Text :=
  mnemonic ++ ascii [':', ' '] ++ dest ++ ascii [' ', '=', ' '] ++ bin8 v

/-- `VER: Verbosity old -> new` (rules R67, R71). -/
def verLine (old new : Bool) : Text :=
  ascii ['V', 'E', 'R', ':', ' ', 'V', 'e', 'r', 'b', 'o', 's', 'i', 't', 'y', ' '] ++ [bitChar old] ++
    ascii [' ', '-', '>', ' '] ++ [bitChar new]

/-- `IF: c = true` or `IF: c = false` (rules R71, R75). -/
def ifLine (cond : Text) (b : Bool) : Text :=
  ascii ['I', 'F', ':', ' '] ++ cond ++ ascii [' ', '=', ' '] ++
    (if b then ascii ['t', 'r', 'u', 'e'] else ascii ['f', 'a', 'l', 's', 'e'])

/-- The halt decision (rules R69, R71). -/
def haltLine (stops : Bool) : Text :=
  ascii ['H', 'A', 'L', 'T', ':', ' ', 'e', 'x', 'e', 'c', 'u', 't', 'i', 'o', 'n', ' '] ++
    (if stops then ascii ['h', 'a', 'l', 't', 'e', 'd']
      else ascii ['c', 'o', 'n', 't', 'i', 'n', 'u', 'e', 's'])

/-- The `OUT` line, which the source fixes (rule R68); the operand stands in it as written (D38). -/
def outLine (x : Text) (v : Byte) : Text :=
  ascii ['O', 'U', 'T', ':', ' ', 'O', 'u', 't', 'p', 'u', 't', ' '] ++ x ++ ascii [' ', '=', ' '] ++ bin8 v

end Sys2Proof.Machine
end

