-- ==== Sys2Proof/Machine/Operands.lean ====
section
/-! DEFINITION. Operands: the value of a literal (rule R46), the value of an operand (`resolve`, rule R47),
the location it names (`loc`, rule R48), and the combinators every instruction's rule is written with, in
the order of rules R32 and R97. -/

namespace Sys2Proof.Machine

/-- The number a digit stands for; letters of either case stand for 10 to 15 (rule R42). -/
def hexValue (d : Fin 22) : Nat := if d.val < 16 then d.val else d.val - 6

/-- Digits read in a base, most significant first. -/
def digitsValue (base : Nat) (ds : List Nat) : Nat := ds.foldl (fun n d => n * base + d) 0

/-- The number the digits of a literal read as (rules R41, R42, R45). -/
def literalNumber : Literal → Nat
  | .bin d ds => digitsValue 2 ((d :: ds).map Fin.val)
  | .hex d ds => digitsValue 16 ((d :: ds).map hexValue)
  | .dec d ds => digitsValue 10 ((d :: ds).map Fin.val)

/-- The value of a literal: its number modulo 256 (rule R46). -/
def literalValue (l : Literal) : Byte := BitVec.ofNat 8 (literalNumber l)

/-- `resolve`: the value of an operand, or the error its text raises (rule R47). It changes no state. -/
def resolve : Operand → State → Except MachineError Byte
  | .lit l, _ => .ok (literalValue l)
  | .reg i, s => .ok (s.readReg i)
  | .mem inner, s =>
    match resolve inner s with
    | .ok a => .ok (s.memRead a)
    | .error e => .error e
  | .badReg t, _ => .error (.invalidRegister t)
  | .bad t, _ => .error (.malformedOperand t)

/-- A location: a register or a memory cell (rule R48). -/
inductive Location where
  | reg (i : Fin 8)
  | mem (a : Byte)
  deriving DecidableEq, Repr

/-- `loc`: the location an operand names; a literal names none (rule R48). -/
def loc : Operand → State → Except MachineError Location
  | .lit l, _ => .error (.malformedOperand (operandText (.lit l)))
  | .reg i, _ => .ok (.reg i)
  | .mem inner, s =>
    match resolve inner s with
    | .ok a => .ok (.mem a)
    | .error e => .error e
  | .badReg t, _ => .error (.invalidRegister t)
  | .bad t, _ => .error (.malformedOperand t)

/-- `read(L)` (rule R48). -/
def State.readLoc (s : State) : Location → Byte
  | .reg i => s.readReg i
  | .mem a => s.memRead a

/-- `write(L, v)` (rule R48). -/
def State.writeLoc (s : State) (v : Byte) : Location → State
  | .reg i => s.writeReg i v
  | .mem a => s.memWrite a v

/-- How many bracket pairs enclose the base (rule R53's `depth`). -/
def operandDepth : Operand → Nat
  | .mem inner => operandDepth inner + 1
  | .lit _ => 0
  | .reg _ => 0
  | .badReg _ => 0
  | .bad _ => 0

/-- What stands inside all brackets (rule R53's `base`). -/
def operandBase : Operand → Operand
  | .mem inner => operandBase inner
  | .lit l => .lit l
  | .reg i => .reg i
  | .badReg t => .badReg t
  | .bad t => .bad t

/-! ### The phases of an instruction (rule R32) -/

/-- Cut a two-operand form; a missing separator is Malformed Operand of the whole rest (rule R38). -/
def withPair (f : PairForm) (k : Operand → Operand → Except MachineError State) :
    Except MachineError State :=
  match f with
  | .pair d s => k d s
  | .noSep rest => .error (.malformedOperand rest)

/-- Find the location of a written operand. -/
def withLoc (d : Operand) (s : State) (k : Location → Except MachineError State) :
    Except MachineError State :=
  match loc d s with
  | .ok l => k l
  | .error e => .error e

/-- Find the value of a value operand. -/
def withValue (x : Operand) (s : State) (k : Byte → Except MachineError State) :
    Except MachineError State :=
  match resolve x s with
  | .ok v => k v
  | .error e => .error e

end Sys2Proof.Machine
end

