-- ==== Sys2Proof/Machine/Arith.lean ====
section
/-! DEFINITION. Arithmetic: `ADD`, `SUB`, `MUL`, `DIV` (41_arithmetic.md). Operands are taken as unsigned
numbers, the exact result is computed, and its low 8 bits are kept (rule R66). -/

namespace Sys2Proof.Machine

/-- The shape the four instructions share (rule R61): the destination is the left operand, both values are
read before the write. -/
def aluRule (mnemonic : Text) (op : Byte → Byte → Except MachineError Byte) (f : PairForm) (s : State) :
    Except MachineError State :=
  withPair f fun d src =>
    withLoc d s fun l =>
      withValue src s fun b =>
        match op (s.readLoc l) b with
        | .ok r => .ok ((s.writeLoc r l).diag (resultLine mnemonic (operandText d) r))
        | .error e => .error e

/-- `(a + b) mod 256` (rule R62). -/
def addOp (a b : Byte) : Except MachineError Byte := .ok (BitVec.ofNat 8 (a.toNat + b.toNat))

/-- `(a - b) mod 256`, the non-negative remainder (rule R63). -/
def subOp (a b : Byte) : Except MachineError Byte :=
  .ok (BitVec.ofInt 8 ((a.toNat : Int) - (b.toNat : Int)))

/-- `(a * b) mod 256` (rule R64). -/
def mulOp (a b : Byte) : Except MachineError Byte := .ok (BitVec.ofNat 8 (a.toNat * b.toNat))

/-- The floor of `a / b`; Division By Zero when `b` is 0, whatever `a` is (rules R65, R94). -/
def divOp (a b : Byte) : Except MachineError Byte :=
  if b.toNat = 0 then .error .divisionByZero else .ok (BitVec.ofNat 8 (a.toNat / b.toNat))

/-- `ADD dest, src` (rule R62). -/
def execAdd (f : PairForm) (s : State) : Outcome := attempt s (aluRule (ascii ['A', 'D', 'D']) addOp f s)

/-- `SUB dest, src` (rule R63). -/
def execSub (f : PairForm) (s : State) : Outcome := attempt s (aluRule (ascii ['S', 'U', 'B']) subOp f s)

/-- `MUL dest, src` (rule R64). -/
def execMul (f : PairForm) (s : State) : Outcome := attempt s (aluRule (ascii ['M', 'U', 'L']) mulOp f s)

/-- `DIV dest, src` (rule R65). -/
def execDiv (f : PairForm) (s : State) : Outcome := attempt s (aluRule (ascii ['D', 'I', 'V']) divOp f s)

end Sys2Proof.Machine
end

