-- ==== Sys2Proof/Machine/Condition.lean ====
section
/-! DEFINITION. Conditions and the `IF` instruction, which does no branching itself (rules R73 to R75). -/

namespace Sys2Proof.Machine

/-- `evaluateCondition(a, op, b)`: unsigned comparison by operator text; any other operator text is Invalid
Operator, which no program reaches (rules R74, R93). -/
def evaluateCondition (a : Byte) (op : Text) (b : Byte) : Except MachineError Bool :=
  if op = ascii ['=', '='] then .ok (decide (a.toNat = b.toNat))
  else if op = ascii ['!', '='] then .ok (decide (a.toNat ≠ b.toNat))
  else if op = ascii ['>'] then .ok (decide (b.toNat < a.toNat))
  else if op = ascii ['<'] then .ok (decide (a.toNat < b.toNat))
  else if op = ascii ['>', '='] then .ok (decide (b.toNat ≤ a.toNat))
  else if op = ascii ['<', '='] then .ok (decide (a.toNat ≤ b.toNat))
  else .error (.invalidOperator op)

/-- `cond(c)`: parse, left value, right value, comparison (rule R74). It changes no state. -/
def evalCond (f : CondForm) (s : State) : Except MachineError Bool :=
  match f with
  | .noOp t => .error (.invalidCondition t)
  | .cmp l _ op _ r =>
    match resolve l s with
    | .error e => .error e
    | .ok a =>
      match resolve r s with
      | .error e => .error e
      | .ok b => evaluateCondition a op.text b

/-- `IF left op right`: only the diagnostic (rule R75). -/
def ifRule (f : CondForm) (s : State) : Except MachineError State :=
  match evalCond f s with
  | .error e => .error e
  | .ok b => .ok (s.diag (ifLine f.text b))

/-- `IF left op right` (rule R75). -/
def execIf (f : CondForm) (s : State) : Outcome := attempt s (ifRule f s)

end Sys2Proof.Machine
end

