-- ==== Sys2Proof/Machine/DataMove.lean ====
section
/-! DEFINITION. Data movement: `INIT`, `MOV`, `QMOV`, `CLR` (40_data_movement.md). -/

namespace Sys2Proof.Machine

/-- The rule `INIT` and `MOV` share: locate, resolve, write, log (rules R56, R57). -/
def moveRule (mnemonic : Text) (f : PairForm) (s : State) : Except MachineError State :=
  withPair f fun d src =>
    withLoc d s fun l =>
      withValue src s fun v =>
        .ok ((s.writeLoc v l).diag (resultLine mnemonic (operandText d) v))

/-- `INIT dest = value` (rule R56). -/
def execInit (f : PairForm) (s : State) : Outcome := attempt s (moveRule (ascii ['I', 'N', 'I', 'T']) f s)

/-- `MOV dest, src` (rule R57). -/
def execMov (f : PairForm) (s : State) : Outcome := attempt s (moveRule (ascii ['M', 'O', 'V']) f s)

/-- `QMOV dest, src`: the copy first, the clear of the source second; both locations are found from the
state before the instruction (rule R58). -/
def qmovRule (f : PairForm) (s : State) : Except MachineError State :=
  withPair f fun d src =>
    withLoc d s fun l =>
      withLoc src s fun from_ =>
        let v := s.readLoc from_
        .ok ((((s.writeLoc v l).writeLoc 0#8 from_).diag
          (resultLine (ascii ['Q', 'M', 'O', 'V']) (operandText d) v)).diag
          (resultLine (ascii ['Q', 'M', 'O', 'V']) (operandText src) 0#8))

/-- `QMOV dest, src` (rule R58). -/
def execQmov (f : PairForm) (s : State) : Outcome := attempt s (qmovRule f s)

/-- `CLR target`: no diagnostic (rule R59). -/
def execClr (x : Operand) (s : State) : Outcome :=
  attempt s (withLoc x s fun l => .ok (s.writeLoc 0#8 l))

end Sys2Proof.Machine
end

