-- ==== Sys2Proof/Machine/System.lean ====
section
/-! DEFINITION. Output and system: `VER`, `OUT`, `HALT` (42_output_and_system.md). -/

namespace Sys2Proof.Machine

/-- `VER = value`: `V` is set exactly when the value is 1, and the diagnostic is gated by the new `V`
(rule R67). -/
def verRule (f : ValueForm) (s : State) : Except MachineError State :=
  match f with
  | .noEq rest => .error (.malformedOperand rest)
  | .eq x =>
    withValue x s fun v =>
      let new := v == 1#8
      .ok ((s.setVerbose new).diag (verLine s.verbose new))

/-- `VER = value` (rule R67). -/
def execVer (f : ValueForm) (s : State) : Outcome := attempt s (verRule f s)

/-- `OUT value`: one line whatever `V` is (rule R68). -/
def execOut (x : Operand) (s : State) : Outcome :=
  attempt s (withValue x s fun v => .ok (s.emit (outLine (operandText x) v)))

/-- `HALT value`: `H` is set exactly when the value is 1, and never cleared (rule R69). -/
def haltRule (x : Operand) (s : State) : Except MachineError State :=
  withValue x s fun v =>
    let stops := v == 1#8
    .ok ((if stops then s.setHalted else s).diag (haltLine stops))

/-- `HALT value` (rule R69). -/
def execHalt (x : Operand) (s : State) : Outcome := attempt s (haltRule x s)

end Sys2Proof.Machine
end

