-- ==== Sys2Proof/Machine/Dispatch.lean ====
section
/-! DEFINITION. The execute stage: one arm per instruction. -/

namespace Sys2Proof.Machine

def exec (i : Instr) (s : State) : Host.Outcome State Fault Refusal :=
  match i with
  | .ver f => Sys2Proof.Machine.execVer f s
  | .init f => Sys2Proof.Machine.execInit f s
  | .mov f => Sys2Proof.Machine.execMov f s
  | .qmov f => Sys2Proof.Machine.execQmov f s
  | .add f => Sys2Proof.Machine.execAdd f s
  | .sub f => Sys2Proof.Machine.execSub f s
  | .mul f => Sys2Proof.Machine.execMul f s
  | .div f => Sys2Proof.Machine.execDiv f s
  | .out x => Sys2Proof.Machine.execOut x s
  | .ifc f => Sys2Proof.Machine.execIf f s
  | .clr x => Sys2Proof.Machine.execClr x s
  | .halt x => Sys2Proof.Machine.execHalt x s

end Sys2Proof.Machine
end

