-- ==== Sys2Proof/Machine/Sequencer.lean ====
section
/-! DEFINITION. The Program Segmenter and the sequencer (43_conditions_and_control_flow.md): executing one
line (rules R37, R95), the line classes and the line-indexed form (rule R86), and the unit form (rules R76
to R85), to which the line-indexed form is equivalent. -/

namespace Sys2Proof.Machine

/-- `execute(t)`: decode and execute one comment-stripped, trimmed line (rules R37, R49, R50, R95). -/
def execute (t : Text) (s : State) : Outcome :=
  match decodeLine t with
  | .empty => .next s
  | .unknown tok => .next (takeError (.unknownInstruction tok) s)
  | .instr i => exec i s

/-! ### Line classes -/

/-- The class of a line (rule R86). -/
inductive LineClass where
  | skip
  | plain
  | ifHead
  | ifBody
  | elseMark
  | elseBody
  deriving DecidableEq, Repr

/-- Where the Segmenter stands before a line: at the unit level, in an if-block, in an else-block. -/
inductive SegMode where
  | unit
  | inIf
  | inElse
  deriving DecidableEq, Repr

/-- The class of a line at the unit level and the mode after it (rules R76, R77, R78). -/
def classifyUnit (line : Text) : LineClass × SegMode :=
  if lineText line = [] then (.skip, .unit)
  else if token0 (lineText line) = Opcode.ifc.mnemonic then (.ifHead, .inIf)
  else (.plain, .unit)

/-- The text of the else marker (rules R52, R79). -/
def elseText : Text := ascii ['E', 'L', 'S', 'E']

/-- The class of a line and the mode after it (rules R76 to R80). The indentation test is made on the
comment-stripped line (rule R78). -/
def classifyLine : SegMode → Text → LineClass × SegMode
  | .unit, line => classifyUnit line
  | .inIf, line =>
    if indented (stripComment line) then (.ifBody, .inIf)
    else if lineText line = elseText then (.elseMark, .inElse)
    else classifyUnit line
  | .inElse, line =>
    if indented (stripComment line) then (.elseBody, .inElse)
    else classifyUnit line

/-- The lines of a program with their classes and instruction texts, from a mode on. -/
def classifyFrom : SegMode → List Text → List (LineClass × Text)
  | _, [] => []
  | m, line :: lines =>
    ((classifyLine m line).1, lineText line) :: classifyFrom (classifyLine m line).2 lines

/-- The classified lines of a program, fixed by `PROG` alone (rules R13, R86). -/
def classified (prog : Text) : List (LineClass × Text) := classifyFrom .unit (splitLines prog)

/-- `N`, the number of lines (rule R33). -/
def lineCount (prog : Text) : Nat := (splitLines prog).length

/-- The line at `pc`, or nothing when `pc` has reached `N` (rules R10, R104). -/
def fetchLine (s : State) : Option (LineClass × Text) := (classified s.prog)[s.pc]?

/-! ### The line-indexed form -/

/-- The block a condition's outcome selects; an error selects none (rules R82, R85, R86). -/
def branchOf : Except MachineError Bool → BranchSel
  | .ok true => .takeIf
  | .ok false => .takeElse
  | .error _ => .takeNone

/-- `B` after the head of a Conditional Unit: its condition on the current state (rules R82, R86). -/
def selectBranch (t : Text) (s : State) : State :=
  s.setBranch (branchOf (evalCond (parseCondForm (restOf t)) s))

/-- The action of a line of a class, before `pc` advances (rule R86). -/
def lineAction (c : LineClass) (t : Text) (s : State) : Outcome :=
  match c with
  | .skip => .next s
  | .elseMark => .next s
  | .plain => execute t s
  | .ifHead => mapNext (selectBranch t) (execute t s)
  | .ifBody => if s.branch = .takeIf then execute t s else .next s
  | .elseBody => if s.branch = .takeElse then execute t s else .next s

/-- One line: its action, then `pc <- pc + 1` (rule R86). -/
def runLine (c : LineClass) (t : Text) (s : State) : Outcome := mapNext advance (lineAction c t s)

/-! ### The unit form -/

/-- A unit of the Segmenter's output (rules R77, R78, R79). -/
inductive ProgUnit where
  | plain (t : Text)
  | cond (head : Text) (ifBlock : List Text) (elseBlock : Option (List Text))
  deriving DecidableEq, Repr

/-- The leading lines that are indented after comment stripping (rule R78). -/
def blockOf (lines : List Text) : List Text :=
  (lines.takeWhile (fun l => indented (stripComment l))).map lineText

/-- What follows those lines. -/
def afterBlock (lines : List Text) : List Text :=
  lines.dropWhile (fun l => indented (stripComment l))

/-- The else-block of a unit whose if-block is followed by these lines (rule R79). -/
def elseBlockOf : List Text → Option (List Text)
  | [] => none
  | line :: lines => if lineText line = elseText then some (blockOf lines) else none

/-- The lines after the group (rule R79). -/
def afterElse : List Text → List Text
  | [] => []
  | line :: lines => if lineText line = elseText then afterBlock lines else line :: lines

/-- The units of a sequence of lines (rules R76 to R80). The first argument bounds the number of rounds;
the number of lines is always enough. -/
def segmentAux : Nat → List Text → List ProgUnit
  | _, [] => []
  | 0, _ :: _ => []
  | n + 1, line :: lines =>
    if lineText line = [] then segmentAux n lines
    else if token0 (lineText line) = Opcode.ifc.mnemonic then
      .cond (lineText line) (blockOf lines) (elseBlockOf (afterBlock lines)) ::
        segmentAux n (afterElse (afterBlock lines))
    else .plain (lineText line) :: segmentAux n lines

/-- The units of a program (rules R76 to R80). -/
def segment (prog : Text) : List ProgUnit := segmentAux (lineCount prog) (splitLines prog)

/-- Block execution: the lines in order until `H` is set (rules R83, R84). -/
def runBlock : List Text → State → Outcome
  | [], s => .next s
  | t :: ts, s => if s.halted then .next s else andThen (execute t s) (runBlock ts)

/-- The block of a Conditional Unit that the latch value selects (rule R82). -/
def selectedBlock (b : BranchSel) (ifBlock : List Text) (elseBlock : Option (List Text)) : List Text :=
  match b with
  | .takeIf => ifBlock
  | .takeElse => elseBlock.getD []
  | .takeNone => []

/-- One unit (rules R81, R82): the head is executed first, then its condition is evaluated on the current
state, then one block runs or none. -/
def runUnit : ProgUnit → State → Outcome
  | .plain t, s => execute t s
  | .cond head ifBlock elseBlock, s =>
    andThen (execute head s) fun s' =>
      runBlock (selectedBlock (branchOf (evalCond (parseCondForm (restOf head)) s')) ifBlock elseBlock) s'

/-- The run loop: the units in order until `H` is set (rules R81, R84). -/
def runUnits : List ProgUnit → State → Outcome
  | [], s => .next s
  | u :: us, s => if s.halted then .next s else andThen (runUnit u s) (runUnits us)

end Sys2Proof.Machine
end

