-- ==== Sys2Proof/Machine/HostPort.lean ====
section
/-! DEFINITION. What the host does between runs and what it reads (rules R102 to R106, R12). None of these
is a step: the host has no move during a run (rule R106). Reset is `State.reset`. -/

namespace Sys2Proof.Machine

/-- Load: the program text is stored whole and not checked (rules R13, R106). -/
def State.load (s : State) (prog : Text) : State := { s with prog := prog }

/-- Run start: `pc`, `H`, `B` and `LOG` are initialised; registers, memory, `V` and `PROG` are kept
(rule R103). -/
def State.start (s : State) : State :=
  { s with pc := 0, halted := false, branch := .takeNone, log := [] }

/-- The run is over: no step is enabled (rule R104). -/
def State.runOver (s : State) : Bool := s.halted || decide (lineCount s.prog ≤ s.pc)

/-- The registers in index order (rule R106). -/
def State.registersView (s : State) : List Byte := s.regs.toList

/-- The 256 memory cells in address order (rule R106). -/
def State.memoryView (s : State) : List Byte :=
  (List.range Config.memSize).map (fun a => Memory.read s.mem a)

/-- Lines joined by one line feed between consecutive lines and none at the end (rule R12). -/
def joinLines : List Text → Text
  | [] => []
  | [l] => l
  | l :: m :: ls => l ++ 0x0A#8 :: joinLines (m :: ls)

/-- The accumulated output (rules R12, R106). -/
def State.outputText (s : State) : Text := joinLines s.log

end Sys2Proof.Machine
end

