-- ==== Sys2Proof/Machine/Step.lean ====
section
/-! DEFINITION. One step: one line of the program (rule R86); and placing an instruction where the next step
fetches it. -/

namespace Sys2Proof.Machine

/-- One step, enabled when `H = 0` and `pc < N` (rules R86, R104). -/
def step (s : State) : Host.Outcome State Fault Refusal :=
  if s.halted then .fault .halted
  else match fetchLine s with
    | none => .fault .endOfProgram
    | some (c, t) => runLine c t s

/-- The state with the word's bytes as the line at `pc`: `PROG` becomes `pc` blank lines and then that line,
and `H` is cleared, because a halted machine fetches nothing. Programs are loaded by the host:
assumption 10. -/
def State.withFetchWord (s : State) (nbits w : Nat) : State :=
  { s with prog := List.replicate s.pc 0x0A#8 ++ tableWordText nbits w, halted := false }

end Sys2Proof.Machine
end

