-- ==== Sys2Proof/Safety.lean ====
section
/-! DEFINITION. The terms statements are written in: the invariant of the machine, and what it means that
control state or every location is kept. -/

namespace Sys2Proof.Machine

/-- The invariant every step keeps: memory is in canonical form with cell addresses only (rules R7, R21),
and `pc` has not passed the number of lines (rule R10). -/
def State.Inv (s : State) : Prop := Memory.wf s.mem = true ∧ s.pc ≤ lineCount s.prog

/-- Every register and every memory cell is as before. -/
def SameStorage (s t : State) : Prop := ∀ l : Location, t.readLoc l = s.readLoc l

/-- Every register and every memory cell but one location is as before. -/
def SameStorageBut (l : Location) (s t : State) : Prop :=
  ∀ l' : Location, l' ≠ l → t.readLoc l' = s.readLoc l'

/-- `H`, `pc`, `B` and `PROG` are as before. -/
def SameSequencing (s t : State) : Prop :=
  t.halted = s.halted ∧ t.pc = s.pc ∧ t.branch = s.branch ∧ t.prog = s.prog

/-- The lines a diagnostic adds to `LOG`: one when `V` is set, none when it is not (rule R71). -/
def diagLines (v : Bool) (line : Text) : List Text := if v then [line] else []

/-- A step is enabled (rules R86, R104). -/
def State.Enabled (s : State) : Prop := s.halted = false ∧ s.pc < lineCount s.prog

/-- The written operands of a two-operand form: its destination (rule R6). -/
def pairDests : PairForm → List Operand
  | .pair d _ => [d]
  | .noSep _ => []

/-- The written operands of `QMOV`: its destination, and its source, which is cleared (rule R6). -/
def pairBothDests : PairForm → List Operand
  | .pair d x => [d, x]
  | .noSep _ => []

/-- The operands an instruction writes (rule R6): `VER`, `OUT`, `IF` and `HALT` write none. -/
def writtenOperands : Instr → List Operand
  | .ver _ => []
  | .init f => pairDests f
  | .mov f => pairDests f
  | .qmov f => pairBothDests f
  | .add f => pairDests f
  | .sub f => pairDests f
  | .mul f => pairDests f
  | .div f => pairDests f
  | .out _ => []
  | .ifc _ => []
  | .clr x => [x]
  | .halt _ => []

/-- The state an error leaves: one more line in `LOG`, everything else as it was (rules R95, R96). -/
def AfterError (e : MachineError) (s t : State) : Prop :=
  SameStorage s t ∧ t.verbose = s.verbose ∧ SameSequencing s t ∧
    t.log = s.log ++ [ascii ['E', 'r', 'r', 'o', 'r', ':', ' '] ++ e.message]

/-! ### Line classes, in the characters of rules R34 and R78 -/

/-- The text begins with two spaces (rule R34). -/
def BeginsWithTwoSpaces (t : Text) : Prop := ∃ u, t = 0x20#8 :: 0x20#8 :: u

/-- The text is `IF`, or `IF` followed by a whitespace character (rules R37, R78). -/
def FirstTokenIsIf (t : Text) : Prop :=
  t = [0x49#8, 0x46#8] ∨
    ∃ b u, b ∈ [0x20#8, 0x09#8, 0x0D#8, 0x0B#8, 0x0C#8] ∧ t = 0x49#8 :: 0x46#8 :: b :: u

/-- The line before line `k` has one of two classes. -/
def LineBefore (p : Text) (k : Nat) (c c' : LineClass) : Prop :=
  ∃ j y, k = j + 1 ∧ ((classified p)[j]? = some (c, y) ∨ (classified p)[j]? = some (c', y))

/-- Line `k` directly follows the head of a Conditional Unit or a line of its if-block (rule R78). -/
def AfterIfPart (p : Text) (k : Nat) : Prop := LineBefore p k .ifHead .ifBody

/-- Line `k` directly follows an else marker or a line of its else-block (rule R79). -/
def AfterElsePart (p : Text) (k : Nat) : Prop := LineBefore p k .elseMark .elseBody

end Sys2Proof.Machine
end

