-- ==== Sys2Proof/Certificates/Slice0/Obligations.lean ====
section
/-! DEFINITION. The statements for the provers. Each docstring names the rules of spec/ the statement
formalises or rests on; where a clause rests on a decision the spec marks as its own (D<n> of
92_eei_decisions.md), the docstring says so and names the log entry. -/

open Sys2Proof Sys2Proof.Machine

/-! ### Decoding and encoding -/

/-- Lines of every opcode decode to the instruction they stand for (rules R37 to R45; the examples of
95_test_vectors.md). The free whitespace of `DIV R0 , 10` rests on the spec's decision D5 and the malformed
`5]` on D8 (log entry 6). That a line with ill-formed operands decodes to an instruction that holds their
texts, where rule R53 lets decoding raise the error, is the model's reading: log entry 12, DEDUCED. -/
def Obligations.ExampleLinesDecode : Prop :=
  decodeRaw (ofString "VER = 1") = .instr (.ver (.eq (.lit (.dec 1 [])))) ∧
  decodeRaw (ofString "INIT [0x10] = 0b11") =
    .instr (.init (.pair (.mem (.lit (.hex 1 [0]))) (.lit (.bin 1 [1])))) ∧
  decodeRaw (ofString "MOV R0,1") = .instr (.mov (.pair (.reg 0) (.lit (.dec 1 [])))) ∧
  decodeRaw (ofString "  QMOV R7, [[R1]] ; c") =
    .instr (.qmov (.pair (.reg 7) (.mem (.mem (.reg 1))))) ∧
  decodeRaw (ofString "ADD R0, [R1]") = .instr (.add (.pair (.reg 0) (.mem (.reg 1)))) ∧
  decodeRaw (ofString "SUB R1, R2") = .instr (.sub (.pair (.reg 1) (.reg 2))) ∧
  decodeRaw (ofString "MUL R3, 0x1F") = .instr (.mul (.pair (.reg 3) (.lit (.hex 1 [21])))) ∧
  decodeRaw (ofString "DIV R0 , 10") = .instr (.div (.pair (.reg 0) (.lit (.dec 1 [0])))) ∧
  decodeRaw (ofString "OUT R4") = .instr (.out (.reg 4)) ∧
  decodeRaw (ofString "IF R0 >=5") =
    .instr (.ifc (.cmp (.reg 0) [.space] .ge [] (.lit (.dec 5 [])))) ∧
  decodeRaw (ofString "CLR [5]") = .instr (.clr (.mem (.lit (.dec 5 [])))) ∧
  decodeRaw (ofString "HALT 1") = .instr (.halt (.lit (.dec 1 []))) ∧
  decodeRaw (ofString "MOV R9, 5]") =
    .instr (.mov (.pair (.badReg (ofString "R9")) (.bad (ofString "5]")))) ∧
  decodeRaw (ofString "FOO R0") = .unknown (ofString "FOO") ∧
  decodeRaw (ofString " ; c") = .empty

/-- Every well-formed instruction, encoded as a line and decoded as a line of a program, is itself: no
operand, digit, bracket or whitespace of a condition is dropped (rules R37 to R45, R73). -/
def Obligations.WellFormedInstructionsRoundTrip : Prop :=
  ∀ i : Instr, i.wf = true → decodeRaw (encode i) = .instr i

/-- Whatever line an instruction was decoded from, ill-formed operands and missing separators included,
encoding it and decoding it again gives the same instruction (rules R37 to R45, R51, R73). -/
def Obligations.DecodedInstructionsRoundTrip : Prop :=
  ∀ (line : Text) (i : Instr), decodeRaw line = .instr i → decodeRaw (encode i) = .instr i

/-- Classifying an operand text keeps the text as written, whatever it is (rule R53: the text is kept for
log lines). -/
def Obligations.OperandParsingKeepsTheText : Prop :=
  ∀ t : Text, operandText (parseOperand t) = t

/-- Cutting a trimmed condition text keeps the text as written (rule R53: it is kept for the
diagnostic). -/
def Obligations.ConditionParsingKeepsTheText : Prop :=
  ∀ c : Text, trim c = c → (parseCondForm c).text = c

/-- Rule R40: the five tests in their order, and the first that holds decides. Rule R44: the inner text of a
memory reference, untrimmed, is classified in the same way, to any depth; that it is not trimmed is the
spec's decision D10 (log entry 6), and that no depth is refused is the default of `MAX_DEPTH` (log entry 5).
That every text beginning with `R` is a register reference, valid or not, is D7 (log entry 6). -/
def Obligations.OperandTextsAreClassifiedInOrder : Prop :=
  ∀ t : Text, parseOperand t =
    if ofString "0b" <+: t then literalOr t (binLiteral? (t.drop 2))
    else if ofString "0x" <+: t then literalOr t (hexLiteral? (t.drop 2))
    else if ofString "R" <+: t then
      match regIndex? (t.drop 1) with
      | some i => .reg i
      | none => .badReg t
    else if 2 ≤ t.length ∧ ofString "[" <+: t ∧ ofString "]" <:+ t then
      .mem (parseOperand (t.drop 1).dropLast)
    else literalOr t (decLiteral? t)

/-- A text that begins with `R` is a register reference when exactly one digit `0` to `7` follows, and
raises Invalid Register otherwise (rules R43, R89; the reading is the spec's decision D7). -/
def Obligations.RegisterTextsAreOneDigit : Prop :=
  ∀ u : Text,
    (∀ i : Fin 8, u = [BitVec.ofNat 8 (0x30 + i.val)] → parseOperand (0x52#8 :: u) = .reg i) ∧
    ((∀ i : Fin 8, u ≠ [BitVec.ofNat 8 (0x30 + i.val)]) →
      parseOperand (0x52#8 :: u) = .badReg (0x52#8 :: u))

/-- The value of a literal is the number its digits read as, most significant first, modulo 256 (rules R41,
R42, R45, R46): for a text of digit characters after `0b` or `0x` or alone, with the number each character
stands for written out, and for a literal as syntax, whose hexadecimal digits 10 to 15 are the lower case
letters and 16 to 21 the upper case ones. Texts with no digit or with another character are no literals. The
unbounded digit count is the default of `LIT_DIGITS` (D9, log entry 5); that hexadecimal digits of either case
are read is D4, and that nothing but digits is, D8 (log entry 6). -/
def Obligations.LiteralsReadTheirDigitsModulo256 : Prop :=
  (∀ (ps : List (Byte × Nat)) (s : State), ps ≠ [] →
    (∀ p ∈ ps, p ∈ (ofString "01").zip [0, 1]) →
    ∃ v, resolve (parseOperand (ofString "0b" ++ ps.map Prod.fst)) s = .ok v ∧
      v.toNat = Nat.ofDigits 2 (ps.map Prod.snd).reverse % 256) ∧
  (∀ (ps : List (Byte × Nat)) (s : State), ps ≠ [] →
    (∀ p ∈ ps, p ∈ (ofString "0123456789abcdefABCDEF").zip
      [0, 1, 2, 3, 4, 5, 6, 7, 8, 9, 10, 11, 12, 13, 14, 15, 10, 11, 12, 13, 14, 15]) →
    ∃ v, resolve (parseOperand (ofString "0x" ++ ps.map Prod.fst)) s = .ok v ∧
      v.toNat = Nat.ofDigits 16 (ps.map Prod.snd).reverse % 256) ∧
  (∀ (ps : List (Byte × Nat)) (s : State), ps ≠ [] →
    (∀ p ∈ ps, p ∈ (ofString "0123456789").zip [0, 1, 2, 3, 4, 5, 6, 7, 8, 9]) →
    ∃ v, resolve (parseOperand (ps.map Prod.fst)) s = .ok v ∧
      v.toNat = Nat.ofDigits 10 (ps.map Prod.snd).reverse % 256) ∧
  (∀ d ds, (literalValue (.bin d ds)).toNat = Nat.ofDigits 2 ((d :: ds).map Fin.val).reverse % 256) ∧
  (∀ d ds, (literalValue (.hex d ds)).toNat =
    Nat.ofDigits 16 ((d :: ds).map (fun e => if e.val < 16 then e.val else e.val - 6)).reverse % 256) ∧
  (∀ d ds, (literalValue (.dec d ds)).toNat = Nat.ofDigits 10 ((d :: ds).map Fin.val).reverse % 256) ∧
  (∀ t : Text, (t = [] ∨ ∃ b ∈ t, b ∉ ofString "01") →
    parseOperand (ofString "0b" ++ t) = .bad (ofString "0b" ++ t)) ∧
  (∀ t : Text, (t = [] ∨ ∃ b ∈ t, b ∉ ofString "0123456789abcdefABCDEF") →
    parseOperand (ofString "0x" ++ t) = .bad (ofString "0x" ++ t)) ∧
  (∀ t : Text, (t = [] ∨ ∃ b ∈ t, b ∉ ofString "0123456789") →
    ¬ ofString "0b" <+: t → ¬ ofString "0x" <+: t → ¬ ofString "R" <+: t →
    ¬ (2 ≤ t.length ∧ ofString "[" <+: t ∧ ofString "]" <:+ t) → parseOperand t = .bad t)

/-- Rule R73's cut: of the six operators in the order `==`, `!=`, `>=`, `<=`, `>`, `<`, written out here, the
first that occurs anywhere is chosen and the text is cut at its first occurrence, both sides trimmed; with no
operator there is no cut. The order is 90_conflicts.md C2's; the choice and the placement of the cut are the
spec's decision D36 (log entry 6). -/
def Obligations.ConditionsAreCutAtTheFirstOperatorOfTheOrder : Prop :=
  ∀ c : Text,
    (∀ l op r, parseCondition c = some (l, op, r) →
      ∃ (earlier later : List (CmpOp × Text)) (opText before after : Text),
        [(CmpOp.eq, ofString "=="), (.ne, ofString "!="), (.ge, ofString ">="), (.le, ofString "<="),
          (.gt, ofString ">"), (.lt, ofString "<")] = earlier ++ (op, opText) :: later ∧
        (∀ q ∈ earlier, ¬ q.2 <:+: c) ∧
        op.text = opText ∧ c = before ++ opText ++ after ∧ l = trim before ∧ r = trim after ∧
        (∀ x y, c = x ++ opText ++ y → before.length ≤ x.length)) ∧
    (parseCondition c = none →
      ∀ t ∈ [ofString "==", ofString "!=", ofString ">=", ofString "<=", ofString ">", ofString "<"],
        ¬ t <:+: c)

/-! ### Text functions -/

/-- Rule R36: `trim` removes leading and trailing whitespace, all of it and nothing else. -/
def Obligations.TrimRemovesEdgeWhitespace : Prop :=
  ∀ t : Text, ∃ pre post : Text, t = pre ++ trim t ++ post ∧
    (∀ b ∈ pre, isWs b = true) ∧ (∀ b ∈ post, isWs b = true) ∧
    (∀ b, (trim t).head? = some b → isWs b = false) ∧
    (∀ b, (trim t).getLast? = some b → isWs b = false)

/-- Rule R35: a line is truncated at its first `;`, a line without one is kept, and what follows the `;`
does not matter to decoding. -/
def Obligations.CommentsAreCutAtTheFirstSemicolon : Prop :=
  (∀ s : Text, 0x3B#8 ∉ s → stripComment s = s) ∧
  (∀ a b : Text, 0x3B#8 ∉ a → stripComment (a ++ 0x3B#8 :: b) = a) ∧
  (∀ a b : Text, 0x3B#8 ∉ a → decodeRaw (a ++ 0x3B#8 :: b) = decodeRaw a)

/-- Rule R33: the lines joined by line feeds are the text, no line holds a line feed, and there is one line
more than there are line feeds (the treatment of a final line feed is the spec's decision D2, log
entry 8). -/
def Obligations.LinesAreTheTextCutAtLineFeeds : Prop :=
  ∀ p : Text, joinLines (splitLines p) = p ∧ (∀ l ∈ splitLines p, 0x0A#8 ∉ l) ∧
    lineCount p = p.count 0x0A#8 + 1

/-- Rule R70: eight characters, most significant bit first, leading zeros kept. -/
def Obligations.Bin8IsTheBitsMostSignificantFirst : Prop :=
  ∀ v : Byte, (bin8 v).length = 8 ∧
    ∀ k, k < 8 → (bin8 v)[k]? = some (if v.getLsbD (7 - k) then 0x31#8 else 0x30#8)

/-! ### Operands, registers and memory -/

/-- The value of an operand is its base's value with as many memory reads as it has bracket pairs (rules
R44, R47, R53; the record of R53 is the spec's decision D35). -/
def Obligations.OperandValueIsRepeatedMemoryRead : Prop :=
  ∀ (x : Operand) (s : State),
    (∀ v, resolve (operandBase x) s = .ok v → resolve x s = .ok ((s.memRead)^[operandDepth x] v)) ∧
    (∀ e, resolve (operandBase x) s = .error e → resolve x s = .error e)

/-- `resolve` and `loc` of the operand forms that name storage (rules R47, R48, R60): a register reference has
the register's content as its value and the register as its location; a memory reference whose inner text has
value `v` has the content of cell `v` as its value and cell `v` as its location; a literal has its value;
reading a location reads that register or cell. Where an operand names a location, the content of the location
is the operand's value. That a literal names no location is the spec's decision D11, log entry 6. -/
def Obligations.LocationContentIsTheValue : Prop :=
  (∀ (i : Fin 8) (s : State), resolve (.reg i) s = .ok (s.readReg i) ∧ loc (.reg i) s = .ok (.reg i)) ∧
  (∀ (x : Operand) (s : State) (v : Byte), resolve x s = .ok v →
    resolve (.mem x) s = .ok (s.memRead v) ∧ loc (.mem x) s = .ok (.mem v)) ∧
  (∀ (l : Literal) (s : State), resolve (.lit l) s = .ok (literalValue l)) ∧
  (∀ (s : State) (i : Fin 8), s.readLoc (.reg i) = s.readReg i) ∧
  (∀ (s : State) (a : Byte), s.readLoc (.mem a) = s.memRead a) ∧
  (∀ (x : Operand) (s : State) (l : Location), loc x s = .ok l → resolve x s = .ok (s.readLoc l))

/-- A well-formed operand has a value in every state, and a well-formed written operand a location; an
operand that is not raises the same error in every state, Invalid Register or Malformed Operand (rules R47,
R48, R53; D8, D11, log entry 6). -/
def Obligations.OperandErrorsDependOnTheTextAlone : Prop :=
  (∀ x : Operand, x.wf = true → ∀ s, ∃ v, resolve x s = .ok v) ∧
  (∀ x : Operand, x.wfDest = true → ∀ s, ∃ l, loc x s = .ok l) ∧
  (∀ x : Operand, x.wf = false → ∃ t,
    (∀ s, resolve x s = .error (.invalidRegister t)) ∨ (∀ s, resolve x s = .error (.malformedOperand t))) ∧
  (∀ x : Operand, x.wfDest = false → ∃ t,
    (∀ s, loc x s = .error (.invalidRegister t)) ∨ (∀ s, loc x s = .error (.malformedOperand t)))

/-- Rule R20: a write sets its cell and changes no other cell and no other state, in every state. -/
def Obligations.MemoryWriteChangesOneCell : Prop :=
  ∀ (s : State) (a v : Byte),
    (s.memWrite a v).memRead a = v ∧
    (∀ b, b ≠ a → (s.memWrite a v).memRead b = s.memRead b) ∧
    (∀ i, (s.memWrite a v).readReg i = s.readReg i) ∧
    (s.memWrite a v).verbose = s.verbose ∧ (s.memWrite a v).log = s.log ∧
    SameSequencing s (s.memWrite a v)

/-- A register holds what was last written to it, `R0` too, and a write changes no other register and no
memory cell (rule R5). -/
def Obligations.RegisterWriteChangesOneRegister : Prop :=
  ∀ (s : State) (i : Fin 8) (v : Byte),
    (s.writeReg i v).readReg i = v ∧
    (∀ j, j ≠ i → (s.writeReg i v).readReg j = s.readReg j) ∧
    (∀ a, (s.writeReg i v).memRead a = s.memRead a)

/-! ### Instructions: what each does where it completes -/

/-- `INIT` and `MOV` write the source's value to the destination and change nothing else but `LOG`, which
gets the diagnostic when `V` is set (rules R56, R57; the diagnostic's text is the default of `DIAG`, D18, log
entry 3; the order of reads and writes is the spec's decision D12, log entry 6). -/
def Obligations.InitAndMovWriteTheValue : Prop :=
  ∀ (d x : Operand) (s : State) (l : Location) (v : Byte), loc d s = .ok l → resolve x s = .ok v →
    (∃ t, exec (.init (.pair d x)) s = .next t ∧ t.readLoc l = v ∧ SameStorageBut l s t ∧
      t.verbose = s.verbose ∧ SameSequencing s t ∧
      t.log = s.log ++ diagLines s.verbose
        (ofString "INIT: " ++ operandText d ++ ofString " = " ++ bin8 v)) ∧
    (∃ t, exec (.mov (.pair d x)) s = .next t ∧ t.readLoc l = v ∧ SameStorageBut l s t ∧
      t.verbose = s.verbose ∧ SameSequencing s t ∧
      t.log = s.log ++ diagLines s.verbose
        (ofString "MOV: " ++ operandText d ++ ofString " = " ++ bin8 v))

/-- `QMOV` copies the source's content to the destination and then zeroes the source; where both are one
location it ends as 0; nothing else changes but `LOG` (rule R58; texts D18, log entry 3; both locations are
found before either write, D12, and a literal source is an error, D13, log entry 6). -/
def Obligations.QmovCopiesThenClearsTheSource : Prop :=
  ∀ (d x : Operand) (s : State) (l m : Location), loc d s = .ok l → loc x s = .ok m →
    ∃ t, exec (.qmov (.pair d x)) s = .next t ∧ t.readLoc m = 0#8 ∧
      (l ≠ m → t.readLoc l = s.readLoc m) ∧
      (∀ k : Location, k ≠ l → k ≠ m → t.readLoc k = s.readLoc k) ∧
      t.verbose = s.verbose ∧ SameSequencing s t ∧
      t.log = s.log ++
        diagLines s.verbose (ofString "QMOV: " ++ operandText d ++ ofString " = " ++ bin8 (s.readLoc m)) ++
        diagLines s.verbose (ofString "QMOV: " ++ operandText x ++ ofString " = 00000000")

/-- `CLR` zeroes one location and changes nothing else, not even `LOG` (rule R59). -/
def Obligations.ClrZeroesOneLocation : Prop :=
  ∀ (x : Operand) (s : State) (l : Location), loc x s = .ok l →
    ∃ t, exec (.clr x) s = .next t ∧ t.readLoc l = 0#8 ∧ SameStorageBut l s t ∧
      t.verbose = s.verbose ∧ SameSequencing s t ∧ t.log = s.log

/-- `ADD`, `SUB` and `MUL` write the low 8 bits of the exact sum, difference and product of the destination's
content and the source's value, and change nothing else but `LOG` (rules R61 to R64, R66; texts D18, log
entry 3; `SUB`'s wrap D40). -/
def Obligations.AddSubMulWrapTo8Bits : Prop :=
  ∀ (d x : Operand) (s : State) (l : Location) (b : Byte), loc d s = .ok l → resolve x s = .ok b →
    (∃ t, exec (.add (.pair d x)) s = .next t ∧
      (t.readLoc l).toNat = ((s.readLoc l).toNat + b.toNat) % 256 ∧ SameStorageBut l s t ∧
      t.verbose = s.verbose ∧ SameSequencing s t ∧
      t.log = s.log ++ diagLines s.verbose
        (ofString "ADD: " ++ operandText d ++ ofString " = " ++ bin8 (t.readLoc l))) ∧
    (∃ t, exec (.sub (.pair d x)) s = .next t ∧
      ((t.readLoc l).toNat : Int) = (((s.readLoc l).toNat : Int) - (b.toNat : Int)) % 256 ∧
      SameStorageBut l s t ∧ t.verbose = s.verbose ∧ SameSequencing s t ∧
      t.log = s.log ++ diagLines s.verbose
        (ofString "SUB: " ++ operandText d ++ ofString " = " ++ bin8 (t.readLoc l))) ∧
    (∃ t, exec (.mul (.pair d x)) s = .next t ∧
      (t.readLoc l).toNat = ((s.readLoc l).toNat * b.toNat) % 256 ∧ SameStorageBut l s t ∧
      t.verbose = s.verbose ∧ SameSequencing s t ∧
      t.log = s.log ++ diagLines s.verbose
        (ofString "MUL: " ++ operandText d ++ ofString " = " ++ bin8 (t.readLoc l)))

/-- `DIV` by a value that is not 0 writes the floor of the quotient and changes nothing else but `LOG` (rules
R61, R65; the rounding is the spec's decision D15, log entry 6; text D18, log entry 3). -/
def Obligations.DivWritesTheFloorQuotient : Prop :=
  ∀ (d x : Operand) (s : State) (l : Location) (b : Byte), loc d s = .ok l → resolve x s = .ok b →
    b ≠ 0#8 →
    ∃ t, exec (.div (.pair d x)) s = .next t ∧
      (t.readLoc l).toNat = (s.readLoc l).toNat / b.toNat ∧ SameStorageBut l s t ∧
      t.verbose = s.verbose ∧ SameSequencing s t ∧
      t.log = s.log ++ diagLines s.verbose
        (ofString "DIV: " ++ operandText d ++ ofString " = " ++ bin8 (t.readLoc l))

/-- `VER` sets `V` exactly when the value is 1 and clears it otherwise; the line stands in `LOG` only when
the new `V` is set; nothing else changes (rule R67; a value other than 0 or 1 clears, D16, and the new value
gates, D17, log entry 6; text D18, log entry 3). -/
def Obligations.VerSetsTheVerbosityFlag : Prop :=
  ∀ (x : Operand) (s : State) (v : Byte), resolve x s = .ok v →
    ∃ t, exec (.ver (.eq x)) s = .next t ∧ (t.verbose = true ↔ v = 1#8) ∧ SameStorage s t ∧
      SameSequencing s t ∧
      t.log = s.log ++ diagLines (decide (v = 1#8))
        (ofString "VER: Verbosity " ++ (if s.verbose then ofString "1" else ofString "0") ++ ofString " -> 1")

/-- `OUT` appends its line whatever `V` is, with the operand as written, and changes nothing else (rule R68;
the operand as written is the spec's decision D38). -/
def Obligations.OutAppendsItsLine : Prop :=
  ∀ (x : Operand) (s : State) (v : Byte), resolve x s = .ok v →
    ∃ t, exec (.out x) s = .next t ∧ SameStorage s t ∧ t.verbose = s.verbose ∧ SameSequencing s t ∧
      t.log = s.log ++ [ofString "OUT: Output " ++ operandText x ++ ofString " = " ++ bin8 v]

/-- `HALT` sets `H` when the value is 1 and leaves it alone otherwise; nothing else changes but `LOG` (rule
R69; D16, D29; texts D18, log entry 3). -/
def Obligations.HaltSetsTheLatchOnOne : Prop :=
  ∀ (x : Operand) (s : State) (v : Byte), resolve x s = .ok v →
    ∃ t, exec (.halt x) s = .next t ∧ t.halted = (s.halted || decide (v = 1#8)) ∧ SameStorage s t ∧
      t.verbose = s.verbose ∧ t.pc = s.pc ∧ t.branch = s.branch ∧ t.prog = s.prog ∧
      t.log = s.log ++ diagLines s.verbose
        (if v = 1#8 then ofString "HALT: execution halted" else ofString "HALT: execution continues")

/-- Rule R74: comparison of unsigned values by operator, Invalid Operator for any other operator text; and
the value of a condition is that of the comparison, with the left side resolved before the right. -/
def Obligations.ConditionsCompareUnsigned : Prop :=
  (∀ a b : Byte,
    evaluateCondition a (ofString "==") b = .ok (decide (a.toNat = b.toNat)) ∧
    evaluateCondition a (ofString "!=") b = .ok (decide (a.toNat ≠ b.toNat)) ∧
    evaluateCondition a (ofString ">") b = .ok (decide (a.toNat > b.toNat)) ∧
    evaluateCondition a (ofString "<") b = .ok (decide (a.toNat < b.toNat)) ∧
    evaluateCondition a (ofString ">=") b = .ok (decide (a.toNat ≥ b.toNat)) ∧
    evaluateCondition a (ofString "<=") b = .ok (decide (a.toNat ≤ b.toNat)) ∧
    ∀ op : Text, (∀ o ∈ CmpOp.searchOrder, op ≠ o.text) →
      evaluateCondition a op b = .error (.invalidOperator op)) ∧
  (∀ (c : Text) (s : State),
    (parseCondition c = none → evalCond (parseCondForm c) s = .error (.invalidCondition c)) ∧
    ∀ l op r, parseCondition c = some (l, op, r) →
      (∀ e, resolve (parseOperand l) s = .error e → evalCond (parseCondForm c) s = .error e) ∧
      (∀ a, resolve (parseOperand l) s = .ok a →
        (∀ e, resolve (parseOperand r) s = .error e → evalCond (parseCondForm c) s = .error e) ∧
        (∀ b, resolve (parseOperand r) s = .ok b →
          evalCond (parseCondForm c) s = evaluateCondition a op.text b)))

/-- `IF` as an instruction changes only `LOG`, and that only when `V` is set: the diagnostic quotes the
condition as written and its result (rule R75; text D18, log entry 3). -/
def Obligations.IfOnlyLogsItsResult : Prop :=
  ∀ (l r : Operand) (pre post : List Ws) (op : CmpOp) (s : State) (a b : Byte),
    resolve l s = .ok a → resolve r s = .ok b →
    ∃ t result, evaluateCondition a op.text b = .ok result ∧
      exec (.ifc (.cmp l pre op post r)) s = .next t ∧
      SameStorage s t ∧ t.verbose = s.verbose ∧ SameSequencing s t ∧
      t.log = s.log ++ diagLines s.verbose
        (ofString "IF: " ++ CondForm.text (.cmp l pre op post r) ++ ofString " = " ++
          (if result then ofString "true" else ofString "false"))

/-- `ADD` and then `SUB` of the same literal gives the register back its value (rule R66). -/
def Obligations.SubUndoesAdd : Prop :=
  ∀ (i : Fin 8) (n : Literal) (s : State),
    ∃ t u, exec (.add (.pair (.reg i) (.lit n))) s = .next t ∧
      exec (.sub (.pair (.reg i) (.lit n))) t = .next u ∧ SameStorage s u

/-! ### Errors -/

/-- Rule R92: a non-empty line whose first token is no mnemonic adds the Unknown Instruction line, changes
nothing else, and its operands are not looked at. -/
def Obligations.UnknownInstructionsOnlyLog : Prop :=
  ∀ (t : Text) (s : State), t ≠ [] → (∀ o : Opcode, o.mnemonic ≠ token0 t) →
    ∃ u, execute t s = .next u ∧ AfterError (.unknownInstruction (token0 t)) s u ∧
      u.log = s.log ++ [ofString "Error: Unknown instruction: " ++ token0 t]

/-- The empty line does nothing and appends nothing (rule R50; the spec's decision D14, log entry 6). -/
def Obligations.EmptyLinesDoNothing : Prop := ∀ s : State, execute [] s = .next s

/-- An instruction whose operands, separator or condition are ill-formed takes one error, the same in every
state, and changes nothing but `LOG` (rules R51, R53, R90, R91, R95, R96; D6, D8, D11, D22, log entry 6). -/
def Obligations.IllFormedInstructionsTakeTheirError : Prop :=
  ∀ i : Instr, i.wf = false → ∃ e : MachineError, e ≠ .divisionByZero ∧
    ∀ s, ∃ t, exec i s = .next t ∧ AfterError e s t

/-- The error of a two-operand instruction is the first one of: the missing separator, the destination's
error, the source's error (rule R97; the order is the spec's decision D21, log entry 6). -/
def Obligations.TwoOperandErrorsComeInOrder : Prop :=
  ∀ c ∈ [Instr.init, Instr.mov, Instr.qmov, Instr.add, Instr.sub, Instr.mul, Instr.div], ∀ s : State,
    (∀ rest, exec (c (.noSep rest)) s = .next (takeError (.malformedOperand rest) s)) ∧
    (∀ d x e, loc d s = .error e → exec (c (.pair d x)) s = .next (takeError e s)) ∧
    (∀ d x l e, loc d s = .ok l → resolve x s = .error e →
      exec (c (.pair d x)) s = .next (takeError e s))

/-- The instructions of one operand and `IF` take the error of their operand text, `VER` the error of a rest
without `=`, `IF` the error of a text without an operator, and `QMOV` and `CLR` the error of an operand that
names no location (rules R38, R58, R59, R67, R68, R69, R73, R75, R97; D6, D11, D13, log entry 6). -/
def Obligations.OneOperandAndConditionErrors : Prop :=
  ∀ s : State,
    (∀ rest, exec (.ver (.noEq rest)) s = .next (takeError (.malformedOperand rest) s)) ∧
    (∀ x e, resolve x s = .error e →
      exec (.ver (.eq x)) s = .next (takeError e s) ∧ exec (.out x) s = .next (takeError e s) ∧
      exec (.halt x) s = .next (takeError e s)) ∧
    (∀ x e, loc x s = .error e → exec (.clr x) s = .next (takeError e s)) ∧
    (∀ d x l e, loc d s = .ok l → loc x s = .error e →
      exec (.qmov (.pair d x)) s = .next (takeError e s)) ∧
    (∀ c, exec (.ifc (.noOp c)) s = .next (takeError (.invalidCondition c) s)) ∧
    (∀ l pre op post r e, resolve l s = .error e →
      exec (.ifc (.cmp l pre op post r)) s = .next (takeError e s)) ∧
    (∀ l pre op post r a e, resolve l s = .ok a → resolve r s = .error e →
      exec (.ifc (.cmp l pre op post r)) s = .next (takeError e s))

/-- Rule R94: `DIV` raises Division By Zero when its divisor's value is 0, no other instruction raises it, and
it is the only error that depends on the state. -/
def Obligations.OnlyDivisionByZeroDependsOnTheState : Prop :=
  (∀ (d x : Operand) (s : State) (l : Location), loc d s = .ok l → resolve x s = .ok 0#8 →
    ∃ t, exec (.div (.pair d x)) s = .next t ∧ AfterError .divisionByZero s t) ∧
  (∀ (i : Instr) (s : State), exec i s = .next (takeError .divisionByZero s) →
    ∃ d x, i = .div (.pair d x) ∧ resolve x s = .ok 0#8) ∧
  (∀ (i : Instr) (s : State) (e : MachineError), e ≠ .divisionByZero →
    exec i s = .next (takeError e s) → ∀ s', exec i s' = .next (takeError e s'))

/-- Rule R93: `evaluateCondition` raises Invalid Operator on an operator text that is none of the six, and no
line raises it. -/
def Obligations.InvalidOperatorIsNeverRaised : Prop :=
  (∀ (a b : Byte) (op : Text), (∀ o ∈ CmpOp.searchOrder, op ≠ o.text) →
    evaluateCondition a op b = .error (.invalidOperator op)) ∧
  (∀ (t op : Text) (s : State), execute t s ≠ .next (takeError (.invalidOperator op) s))

/-- A line that appends an error line changes nothing else: no register, no memory cell, not `V`, not `H`
(rules R95, R96; general precision is the spec's decision D22). -/
def Obligations.FailedLinesChangeOnlyTheLog : Prop :=
  ∀ (x m : Text) (s t : State), execute x s = .next t →
    (ofString "Error: " ++ m) ∈ t.log.drop s.log.length →
    t = { s with log := s.log ++ [ofString "Error: " ++ m] }

/-! ### Whole-machine rules -/

/-- Every instruction answers a next state in every state, ill-formed or not: none faults and none is
refused (rules R37, R72, R95, R100). -/
def Obligations.EveryInstructionCompletes : Prop :=
  ∀ (i : Instr) (s : State), ∃ t, exec i s = .next t

/-- An instruction changes no register and no memory cell but the locations of its written operands; `VER`,
`OUT`, `IF` and `HALT` have none (rules R6, R7). -/
def Obligations.OnlyWrittenOperandsChangeStorage : Prop :=
  ∀ (i : Instr) (s t : State) (l : Location), exec i s = .next t →
    (∀ d ∈ writtenOperands i, loc d s ≠ .ok l) → t.readLoc l = s.readLoc l

/-- Only `VER` writes `V`, only `HALT` writes `H` and none clears it, and no instruction writes `pc`, `B` or
`PROG` (rules R8, R9, R10, R11, R13, R30; H, pc and B are the spec's names, D28, D29). -/
def Obligations.ControlStateHasItsOwnWriters : Prop :=
  ∀ (i : Instr) (s t : State), exec i s = .next t →
    ((∀ f, i ≠ .ver f) → t.verbose = s.verbose) ∧
    ((∀ x, i ≠ .halt x) → t.halted = s.halted) ∧ (s.halted = true → t.halted = true) ∧
    t.pc = s.pc ∧ t.branch = s.branch ∧ t.prog = s.prog

/-- `LOG` is append-only: an instruction adds lines at the end and changes none (rule R12), and it adds at most
two, the diagnostics of `QMOV` (rules R58, R68, R71, R95). -/
def Obligations.LogIsAppendOnly : Prop :=
  ∀ (i : Instr) (s t : State), exec i s = .next t →
    ∃ added : List Text, added.length ≤ 2 ∧ t.log = s.log ++ added

/-! ### The sequencer -/

/-- A step works on the classified line at `pc` (rules R10, R86). Where it decodes to an instruction, a step of
a machine that is not halted is `exec` of that instruction with what its line's class adds around it: `pc`
advances, a unit head also writes `B`, and a body line runs only in the selected block (rule R86; the line form is the spec's decision D28, log
entry 7). A plain line
or a line of the selected block that decodes to no instruction, an unknown or empty one, runs as `execute` says
(rules R37, R86). -/
def Obligations.StepRunsTheDecodedInstruction : Prop :=
  (∀ s : State, fetchLine s = (classified s.prog)[s.pc]?) ∧
  (∀ s : State, advance s = { s with pc := s.pc + 1 }) ∧
  (∀ (f : State → State) (t : State), mapNext f (.next t) = .next (f t)) ∧
  (∀ (s : State) (x : Text) (i : Instr), decodeLine x = .instr i → execute x s = exec i s) ∧
  (∀ (s : State) (x : Text), s.halted = false →
    (fetchLine s = some (.plain, x) → step s = mapNext advance (execute x s)) ∧
    (fetchLine s = some (.ifBody, x) → s.branch = .takeIf → step s = mapNext advance (execute x s)) ∧
    (fetchLine s = some (.elseBody, x) → s.branch = .takeElse → step s = mapNext advance (execute x s))) ∧
  ∀ (s : State) (x : Text) (i : Instr), s.halted = false → decodeLine x = .instr i →
    (fetchLine s = some (.plain, x) → step s = mapNext advance (exec i s)) ∧
    (fetchLine s = some (.ifHead, x) →
      step s = mapNext advance (mapNext (selectBranch x) (exec i s))) ∧
    (fetchLine s = some (.ifBody, x) → s.branch = .takeIf → step s = mapNext advance (exec i s)) ∧
    (fetchLine s = some (.elseBody, x) → s.branch = .takeElse → step s = mapNext advance (exec i s))

/-- A skipped line, an else marker and a line of a block that is not selected only advance `pc` (rules R76,
R82, R86; D28, log entry 7). -/
def Obligations.PassedOverLinesOnlyAdvancePc : Prop :=
  ∀ (s : State) (x : Text), s.halted = false →
    (fetchLine s = some (.skip, x) → step s = .next { s with pc := s.pc + 1 }) ∧
    (fetchLine s = some (.elseMark, x) → step s = .next { s with pc := s.pc + 1 }) ∧
    (fetchLine s = some (.ifBody, x) → s.branch ≠ .takeIf → step s = .next { s with pc := s.pc + 1 }) ∧
    (fetchLine s = some (.elseBody, x) → s.branch ≠ .takeElse → step s = .next { s with pc := s.pc + 1 })

/-- The head of a Conditional Unit is an `IF`; its step sets `B` from its condition on the state before it:
the if-block when true, the else-block when false, neither on an error; registers, memory, `V` and `H` are
kept (rules R75, R78, R82, R85, R86; the error case is the spec's decision D23, log entry 7). -/
def Obligations.UnitHeadsSelectTheBlock : Prop :=
  ∀ (s : State) (x : Text), s.halted = false → fetchLine s = some (.ifHead, x) →
    ∃ f t, decodeLine x = .instr (.ifc f) ∧ step s = .next t ∧
      (evalCond f s = .ok true → t.branch = .takeIf) ∧
      (evalCond f s = .ok false → t.branch = .takeElse) ∧
      (∀ e, evalCond f s = .error e → t.branch = .takeNone ∧ t.log = s.log ++ [e.line]) ∧
      SameStorage s t ∧ t.verbose = s.verbose ∧ t.halted = s.halted ∧ t.pc = s.pc + 1

/-- A line of an if-block directly follows its head or another line of the block, a line of an else-block
directly follows the else marker or another line of the block, and an else marker directly follows a head or
a line of an if-block: a stale `B` is never read (rules R78, R79, R80, R86; D24, D27, log entry 7). Which
lines these are is `LinesAreClassifiedByTheirText` below. -/
def Obligations.BlockLinesFollowTheirHead : Prop :=
  ∀ (p : Text) (k : Nat) (c : LineClass) (x : Text), (classified p)[k]? = some (c, x) →
    (c = .ifBody ∨ c = .elseMark → ∃ j y, k = j + 1 ∧
      ((classified p)[j]? = some (.ifHead, y) ∨ (classified p)[j]? = some (.ifBody, y))) ∧
    (c = .elseBody → ∃ j y, k = j + 1 ∧
      ((classified p)[j]? = some (.elseMark, y) ∨ (classified p)[j]? = some (.elseBody, y)))

/-- A step is enabled exactly when `H` is clear and `pc` is below the number of lines; it then gives a next
state in which `pc` has grown by one and `PROG` is the same, and otherwise the run is over (rules R10, R30,
R86, R104; the end of a run is the spec's decision D34, log entry 7). -/
def Obligations.StepsRunUntilTheRunIsOver : Prop :=
  ∀ s : State,
    (s.Enabled → ∃ t, step s = .next t ∧ t.pc = s.pc + 1 ∧ t.prog = s.prog ∧
      ∃ added : List Text, t.log = s.log ++ added) ∧
    (s.runOver = true ↔ ¬ s.Enabled) ∧
    (s.halted = true → step s = .fault .halted) ∧
    (s.halted = false → lineCount s.prog ≤ s.pc → step s = .fault .endOfProgram)

/-- Every step keeps the invariant: memory stays in canonical form over the 256 cell addresses, and `pc`
never passes the number of lines (rules R7, R10, R21). -/
def Obligations.EveryStepKeepsTheInvariant : Prop :=
  ∀ s t : State, s.Inv → step s = .next t → t.Inv

/-- The invariant holds after reset (rules R17, R102). -/
def Obligations.ResetMeetsTheInvariant : Prop := State.reset.Inv

/-- From every start state and for every program, stepping line by line ends with the same registers,
memory, `V`, `H` and `LOG` as running the units the Segmenter makes (rule R86 against rules R76 to R85; the
line form is the spec's decision D28, log entry 7). -/
def Obligations.LineFormRunsTheUnits : Prop :=
  ∀ s : State, ∃ n t u, n ≤ lineCount s.prog ∧ Host.Core.run Sys2Proof.core n s.start = .next t ∧
    t.runOver = true ∧ runUnits (segment s.prog) s.start = .next u ∧
    SameStorage t u ∧ u.verbose = t.verbose ∧ u.halted = t.halted ∧ u.log = t.log

/-- Every run ends: from every state, after at most as many steps as lines are left, no step is enabled
(rules R87, R104). -/
def Obligations.EveryRunTerminates : Prop :=
  ∀ s : State, ∃ n t r, n ≤ lineCount s.prog - s.pc ∧ Host.Core.run Sys2Proof.core n s = .next t ∧
    step t = .fault r

/-- Rule R84: a `HALT` whose value is 1 sets `H`; while `H` is set no unit, no block line and no step runs; and
the head of a Conditional Unit leaves `H` alone. -/
def Obligations.HaltStopsEverything : Prop :=
  (∀ (x : Operand) (s t : State), resolve x s = .ok 1#8 → exec (.halt x) s = .next t →
    t.halted = true) ∧
  (∀ s : State, s.halted = true → (∀ us, runUnits us s = .next s) ∧ (∀ b, runBlock b s = .next s) ∧
    ∀ n t, Host.Core.run Sys2Proof.core (n + 1) s ≠ .next t) ∧
  (∀ (f : CondForm) (s t : State), exec (.ifc f) s = .next t → t.halted = s.halted)

/-! ### Reset and the host -/

/-- Reset leaves every register and every cell 0, `V`, `H` and `pc` 0, `B` TAKE_NONE, `LOG` and `PROG` empty
(rules R17, R102; the zeros of registers and memory are the defaults of `RESET_R` and `RESET_M`, D30, log
entry 1). -/
def Obligations.ResetClearsTheMachine : Prop :=
  (∀ l : Location, State.reset.readLoc l = 0#8) ∧ State.reset.verbose = false ∧
    State.reset.halted = false ∧ State.reset.pc = 0 ∧ State.reset.branch = .takeNone ∧
    State.reset.log = [] ∧ State.reset.prog = [] ∧ lineCount State.reset.prog = 1

/-- Load stores the program text whole, unchecked, and changes nothing else (rules R13, R106; D32, log
entry 9). Run start initialises `pc`, `H`, `B` and `LOG` and keeps registers, memory, `V` and the program, and the
machine is then ready to step (rule R103; the spec's decision D31, log entry 9). -/
def Obligations.RunStartKeepsTheStorage : Prop :=
  (∀ (s : State) (p : Text), s.load p = { s with prog := p }) ∧
  ∀ s : State, SameStorage s s.start ∧ s.start.verbose = s.verbose ∧ s.start.prog = s.prog ∧
    s.start.pc = 0 ∧ s.start.halted = false ∧ s.start.branch = .takeNone ∧ s.start.log = [] ∧
    s.start.Enabled

/-- The host reads eight registers in index order and 256 cells in address order (rule R106). -/
def Obligations.HostReadsAllStorage : Prop :=
  ∀ s : State, s.registersView.length = 8 ∧ s.memoryView.length = 256 ∧
    (∀ i : Fin 8, s.registersView[i.val]? = some (s.readReg i)) ∧
    (∀ a : Byte, s.memoryView[a.toNat]? = some (s.memRead a))

/-- The host receives the lines of `LOG` joined by one line feed, none at the end; an empty `LOG` gives the
empty text (rules R12, R106; the joining is the spec's decision D33). -/
def Obligations.OutputIsTheLogJoinedByLineFeeds : Prop :=
  ∀ s : State, (s.log = [] → s.outputText = []) ∧
    (s.log ≠ [] → (∀ l ∈ s.log, 0x0A#8 ∉ l) → splitLines s.outputText = s.log)

/-! ### The texts decoding and grouping rest on -/

/-- The whitespace characters are the bytes 20, 09, 0D, 0B and 0C (hexadecimal), and a line is indented exactly
when it begins with two spaces, so a tab does not indent (rule R34; the set is the default of the open
parameter `WS`, D3: the model's choice, log entry 2). -/
def Obligations.WhitespaceAndIndentation : Prop :=
  (∀ b : Byte, isWs b = true ↔ b ∈ [0x20#8, 0x09#8, 0x0D#8, 0x0B#8, 0x0C#8]) ∧
  (∀ line : Text, indented line = true ↔ ∃ u, line = 0x20#8 :: 0x20#8 :: u)

/-- Token 0 is the longest prefix without whitespace, and the rest is what follows it, trimmed (rule R37; the
whitespace set is log entry 2). -/
def Obligations.TokenZeroEndsAtTheFirstWhitespace : Prop :=
  ∀ t : Text, ∃ u : Text, t = token0 t ++ u ∧
    (∀ b ∈ token0 t, b ∉ [0x20#8, 0x09#8, 0x0D#8, 0x0B#8, 0x0C#8]) ∧
    (∀ b, u.head? = some b → b ∈ [0x20#8, 0x09#8, 0x0D#8, 0x0B#8, 0x0C#8]) ∧ restOf t = trim u

/-- Dispatch and formats. The empty line is the empty instruction; a line whose token 0 is one of the twelve
mnemonics, written out here, is that opcode's instruction, cut from the rest of the line; any other line is an
unknown instruction (rules R37, R39, R49, R50; that case matters is the spec's decision D4, log entry 6). Each
opcode cuts the rest by its format: `VER` after a leading `=`, `INIT` at the first `=`, the two-operand
instructions at the first `,`, both sides trimmed; `OUT`, `CLR` and `HALT` take it whole, `IF` gives it to
`parseCondition`; without the separator the instruction keeps the whole rest (rule R38; the cutting is the
spec's decision D5 and a missing separator D6, log entry 6; keeping the rest in the instruction is log
entry 12). A line of the program is decoded after its comment is stripped and it is trimmed (rules R35,
R36). -/
def Obligations.FormatsCutTheRestOfTheLine : Prop :=
  decodeLine [] = .empty ∧
  (∀ t : Text,
    ∀ c ∈ [(Opcode.ver, ofString "VER"), (.init, ofString "INIT"), (.mov, ofString "MOV"),
      (.qmov, ofString "QMOV"), (.add, ofString "ADD"), (.sub, ofString "SUB"), (.mul, ofString "MUL"),
      (.div, ofString "DIV"), (.out, ofString "OUT"), (.ifc, ofString "IF"), (.clr, ofString "CLR"),
      (.halt, ofString "HALT")],
      c.1.mnemonic = c.2 ∧ (token0 t = c.2 → decodeLine t = .instr (c.1.build (restOf t)))) ∧
  (∀ t : Text, t ≠ [] →
    token0 t ∉ [ofString "VER", ofString "INIT", ofString "MOV", ofString "QMOV", ofString "ADD",
      ofString "SUB", ofString "MUL", ofString "DIV", ofString "OUT", ofString "IF", ofString "CLR",
      ofString "HALT"] →
    decodeLine t = .unknown (token0 t)) ∧
  (∀ line : Text, decodeRaw line = decodeLine (trim (stripComment line))) ∧
  (∀ a b : Text, 0x2C#8 ∉ a →
    ∀ c ∈ [(Opcode.mov, Instr.mov), (.qmov, .qmov), (.add, .add), (.sub, .sub), (.mul, .mul), (.div, .div)],
      c.1.build (a ++ 0x2C#8 :: b) = c.2 (.pair (parseOperand (trim a)) (parseOperand (trim b))) ∧
      c.1.build a = c.2 (.noSep a)) ∧
  (∀ a b : Text, 0x3D#8 ∉ a →
    Opcode.init.build (a ++ 0x3D#8 :: b) = .init (.pair (parseOperand (trim a)) (parseOperand (trim b))) ∧
    Opcode.init.build a = .init (.noSep a) ∧ Opcode.ver.build a = .ver (.noEq a)) ∧
  (∀ a b : Text, Opcode.ver.build (0x3D#8 :: b) = .ver (.eq (parseOperand (trim b))) ∧
    (a.head? ≠ some 0x3D#8 → Opcode.ver.build a = .ver (.noEq a))) ∧
  (∀ rest : Text, Opcode.out.build rest = .out (parseOperand rest) ∧
    Opcode.clr.build rest = .clr (parseOperand rest) ∧ Opcode.halt.build rest = .halt (parseOperand rest) ∧
    Opcode.ifc.build rest = .ifc (parseCondForm rest))

/-- The class of every line of every program, by its own text and the class of the line before it: a line of a
block exactly when it is indented after comment stripping and directly follows its head, marker or block;
the else marker exactly when it is not indented, directly follows a head or an if-block line, and is `ELSE`
stripped and trimmed; and of the other lines the skipped ones are exactly the empty ones, the heads exactly
those whose first token is `IF`, and the rest are plain (rules R34, R76 to R80, R86; the readings of `ELSE`,
`IF`, stray lines and blank lines are the spec's decisions D24 to D27, log entry 7; the whitespace set is log
entry 2). -/
def Obligations.LinesAreClassifiedByTheirText : Prop :=
  ∀ p : Text, (classified p).length = (splitLines p).length ∧
    ∀ (k : Nat) (line : Text), (splitLines p)[k]? = some line →
      ∃ c, (classified p)[k]? = some (c, trim (stripComment line)) ∧
        (c = .ifBody ↔ AfterIfPart p k ∧ BeginsWithTwoSpaces (stripComment line)) ∧
        (c = .elseBody ↔ AfterElsePart p k ∧ BeginsWithTwoSpaces (stripComment line)) ∧
        (c = .elseMark ↔ AfterIfPart p k ∧ ¬ BeginsWithTwoSpaces (stripComment line) ∧
          trim (stripComment line) = ofString "ELSE") ∧
        (c ∉ [.ifBody, .elseBody, .elseMark] →
          (c = .skip ↔ trim (stripComment line) = []) ∧
          (c = .ifHead ↔ FirstTokenIsIf (trim (stripComment line))) ∧
          (c = .plain ↔ trim (stripComment line) ≠ [] ∧ ¬ FirstTokenIsIf (trim (stripComment line))))

/-- An error names the text that failed its form, its line reads as rule R101's table says, and taking it adds
that line to `LOG` and changes nothing else (rules R47, R48, R89, R90, R95, R101; a literal where a location is needed is D11, log entry 6; the texts but that of Unknown
Instruction are the defaults of `ERRMSG`, D19: the model's choice, log entry 4). -/
def Obligations.ErrorLinesNameTheFailingText : Prop :=
  (∀ (t : Text) (s : State), resolve (.badReg t) s = .error (.invalidRegister t) ∧
    loc (.badReg t) s = .error (.invalidRegister t) ∧
    resolve (.bad t) s = .error (.malformedOperand t) ∧ loc (.bad t) s = .error (.malformedOperand t)) ∧
  (∀ (l : Literal) (s : State), loc (.lit l) s = .error (.malformedOperand (literalText l))) ∧
  (∀ (x : Operand) (s : State) (e : MachineError), resolve x s = .error e →
    resolve (.mem x) s = .error e ∧ loc (.mem x) s = .error e) ∧
  (∀ (e : MachineError) (s : State), takeError e s = { s with log := s.log ++ [e.line] }) ∧
  (∀ t : Text,
    (MachineError.invalidRegister t).line = ofString "Error: Invalid register: " ++ t ∧
    (MachineError.malformedOperand t).line = ofString "Error: Malformed operand: " ++ t ∧
    (MachineError.invalidCondition t).line = ofString "Error: Invalid condition: " ++ t ∧
    (MachineError.invalidOperator t).line = ofString "Error: Invalid operator: " ++ t ∧
    (MachineError.unknownInstruction t).line = ofString "Error: Unknown instruction: " ++ t ∧
    MachineError.divisionByZero.line = ofString "Error: Division by zero")
end

