-- ==== Sys2Proof/Laws/Decode.lean ====
section
/-! SUPPORT. What the text functions of decoding can answer: cutting at an operator or separator, reading
digits, and the number digits stand for. -/

namespace Sys2Proof

/-- Where `cutAt` cuts, the text is before, pattern, after, and the pattern occurs nowhere further left. -/
theorem cutAt_some (p : Text) : ∀ (t l r : Text), cutAt p t = some (l, r) →
    t = l ++ p ++ r ∧ ∀ x y, t = x ++ p ++ y → l.length ≤ x.length := by
  intro t
  induction t with
  | nil => simp [cutAt]
  | cons b bs ih =>
    intro l r h
    unfold cutAt at h
    split at h
    · rename_i hp
      obtain ⟨q, hq⟩ := List.isPrefixOf_iff_prefix.1 hp
      simp at h
      obtain ⟨rfl, rfl⟩ := h
      simp [← hq]
    · rename_i hp
      split at h
      · simp at h
      · rename_i l' r' hc
        simp at h
        obtain ⟨rfl, rfl⟩ := h
        obtain ⟨h1, h2⟩ := ih _ _ hc
        refine ⟨by simp [h1], fun x y hx => ?_⟩
        cases x with
        | nil => exact absurd (List.isPrefixOf_iff_prefix.2 ⟨y, by simp [hx]⟩) hp
        | cons c cs => simpa using h2 cs y (by simpa using (List.cons.inj hx).2)

/-- Where `cutAt` gives no cut, the pattern does not occur. -/
theorem cutAt_none {p : Text} (hp : p ≠ []) : ∀ t : Text, cutAt p t = none → ¬ p <:+: t := by
  intro t
  induction t with
  | nil => simpa using fun _ => hp
  | cons b bs ih =>
    intro h
    unfold cutAt at h
    split at h
    · simp at h
    · rename_i hq
      split at h
      · rename_i hc
        rw [List.infix_cons_iff]
        rintro (h | h)
        · exact hq (List.isPrefixOf_iff_prefix.2 h)
        · exact ih hc h
      · simp at h

/-- A separator that occurs is cut at, at its first occurrence. -/
theorem cutAt_separator {c : Byte} {a : Text} (h : c ∉ a) (b : Text) :
    cutAt [c] (a ++ c :: b) = some (a, b) := by
  induction a with
  | nil => simp [cutAt]
  | cons x xs ih =>
    simp only [List.mem_cons, not_or] at h
    simp [cutAt, ih h.2, h.1]

/-- A separator that does not occur gives no cut. -/
theorem cutAt_separator_none {c : Byte} {a : Text} (h : c ∉ a) : cutAt [c] a = none := by
  induction a with
  | nil => simp [cutAt]
  | cons x xs ih =>
    simp only [List.mem_cons, not_or] at h
    simp [cutAt, ih h.2, h.1]

/-- A text of digit characters reads as its digits, each with the number a table of characters gives it. -/
theorem digits?_of_table {α : Type} {f : Byte → Option α} {g : α → Nat} {table : List (Byte × Nat)}
    (h : ∀ p ∈ table, ∃ d, f p.1 = some d ∧ g d = p.2) (ps : List (Byte × Nat)) (hp : ∀ p ∈ ps, p ∈ table) :
    ∃ ds, digits? f (ps.map Prod.fst) = some ds ∧ ds.map g = ps.map Prod.snd := by
  induction ps with
  | nil => exact ⟨[], rfl, rfl⟩
  | cons p ps ih =>
    obtain ⟨ds, h1, h2⟩ := ih fun q hq => hp q (by simp [hq])
    obtain ⟨d, h3, h4⟩ := h p (hp p (by simp))
    exact ⟨d :: ds, by simp [digits?, h1, h3], by simp [h2, h4]⟩

/-- A text with a character that is no digit reads as no digits. -/
theorem digits?_none {α : Type} {f : Byte → Option α} {t : Text} (h : ∃ b ∈ t, f b = none) :
    digits? f t = none := by
  induction t with
  | nil => simp at h
  | cons x xs ih =>
    obtain ⟨b, hb, hf⟩ := h
    rcases List.mem_cons.1 hb with rfl | hb
    · simp [digits?, hf]
    · simp [digits?, ih ⟨b, hb, hf⟩]

namespace Machine

/-- Reading digits most significant first is Mathlib's number of the reversed digits. -/
theorem digitsValue_eq_ofDigits (base : Nat) (ds : List Nat) :
    digitsValue base ds = Nat.ofDigits base ds.reverse := by
  have : ∀ n : Nat, ds.foldl (fun n d => n * base + d) n =
      Nat.ofDigits base ds.reverse + n * base ^ ds.length := by
    induction ds with
    | nil => simp
    | cons d ds ih =>
      intro n
      simp only [List.foldl_cons, ih, List.reverse_cons, Nat.ofDigits_append, List.length_reverse,
        Nat.ofDigits_singleton, List.length_cons]
      ring
  simpa [digitsValue] using this 0

end Machine

end Sys2Proof
end

