-- ==== Sys2Proof/Laws/State.lean ====
section
/-! SUPPORT. One lemma per field per update of the state, so that no proof unfolds a record update. -/

namespace Sys2Proof.Machine

variable (s : State)

/-! `writeReg` -/

@[simp] theorem State.writeReg_regs (i : Fin 8) (v : Byte) : (s.writeReg i v).regs = s.regs.set i.val v := rfl
@[simp] theorem State.writeReg_mem (i : Fin 8) (v : Byte) : (s.writeReg i v).mem = s.mem := rfl
@[simp] theorem State.writeReg_verbose (i : Fin 8) (v : Byte) : (s.writeReg i v).verbose = s.verbose := rfl
@[simp] theorem State.writeReg_halted (i : Fin 8) (v : Byte) : (s.writeReg i v).halted = s.halted := rfl
@[simp] theorem State.writeReg_pc (i : Fin 8) (v : Byte) : (s.writeReg i v).pc = s.pc := rfl
@[simp] theorem State.writeReg_branch (i : Fin 8) (v : Byte) : (s.writeReg i v).branch = s.branch := rfl
@[simp] theorem State.writeReg_log (i : Fin 8) (v : Byte) : (s.writeReg i v).log = s.log := rfl
@[simp] theorem State.writeReg_prog (i : Fin 8) (v : Byte) : (s.writeReg i v).prog = s.prog := rfl

/-! `memWrite` -/

@[simp] theorem State.memWrite_regs (a v : Byte) : (s.memWrite a v).regs = s.regs := rfl
@[simp] theorem State.memWrite_mem (a v : Byte) : (s.memWrite a v).mem = Memory.write s.mem a.toNat v := rfl
@[simp] theorem State.memWrite_verbose (a v : Byte) : (s.memWrite a v).verbose = s.verbose := rfl
@[simp] theorem State.memWrite_halted (a v : Byte) : (s.memWrite a v).halted = s.halted := rfl
@[simp] theorem State.memWrite_pc (a v : Byte) : (s.memWrite a v).pc = s.pc := rfl
@[simp] theorem State.memWrite_branch (a v : Byte) : (s.memWrite a v).branch = s.branch := rfl
@[simp] theorem State.memWrite_log (a v : Byte) : (s.memWrite a v).log = s.log := rfl
@[simp] theorem State.memWrite_prog (a v : Byte) : (s.memWrite a v).prog = s.prog := rfl

/-! `emit` -/

@[simp] theorem State.emit_regs (x : Text) : (s.emit x).regs = s.regs := rfl
@[simp] theorem State.emit_mem (x : Text) : (s.emit x).mem = s.mem := rfl
@[simp] theorem State.emit_verbose (x : Text) : (s.emit x).verbose = s.verbose := rfl
@[simp] theorem State.emit_halted (x : Text) : (s.emit x).halted = s.halted := rfl
@[simp] theorem State.emit_pc (x : Text) : (s.emit x).pc = s.pc := rfl
@[simp] theorem State.emit_branch (x : Text) : (s.emit x).branch = s.branch := rfl
@[simp] theorem State.emit_log (x : Text) : (s.emit x).log = s.log ++ [x] := rfl
@[simp] theorem State.emit_prog (x : Text) : (s.emit x).prog = s.prog := rfl

/-! `setVerbose` -/

@[simp] theorem State.setVerbose_regs (b : Bool) : (s.setVerbose b).regs = s.regs := rfl
@[simp] theorem State.setVerbose_mem (b : Bool) : (s.setVerbose b).mem = s.mem := rfl
@[simp] theorem State.setVerbose_verbose (b : Bool) : (s.setVerbose b).verbose = b := rfl
@[simp] theorem State.setVerbose_halted (b : Bool) : (s.setVerbose b).halted = s.halted := rfl
@[simp] theorem State.setVerbose_pc (b : Bool) : (s.setVerbose b).pc = s.pc := rfl
@[simp] theorem State.setVerbose_branch (b : Bool) : (s.setVerbose b).branch = s.branch := rfl
@[simp] theorem State.setVerbose_log (b : Bool) : (s.setVerbose b).log = s.log := rfl
@[simp] theorem State.setVerbose_prog (b : Bool) : (s.setVerbose b).prog = s.prog := rfl

/-! `setHalted` -/

@[simp] theorem State.setHalted_regs : s.setHalted.regs = s.regs := rfl
@[simp] theorem State.setHalted_mem : s.setHalted.mem = s.mem := rfl
@[simp] theorem State.setHalted_verbose : s.setHalted.verbose = s.verbose := rfl
@[simp] theorem State.setHalted_halted : s.setHalted.halted = true := rfl
@[simp] theorem State.setHalted_pc : s.setHalted.pc = s.pc := rfl
@[simp] theorem State.setHalted_branch : s.setHalted.branch = s.branch := rfl
@[simp] theorem State.setHalted_log : s.setHalted.log = s.log := rfl
@[simp] theorem State.setHalted_prog : s.setHalted.prog = s.prog := rfl

/-! `setBranch` -/

@[simp] theorem State.setBranch_regs (b : BranchSel) : (s.setBranch b).regs = s.regs := rfl
@[simp] theorem State.setBranch_mem (b : BranchSel) : (s.setBranch b).mem = s.mem := rfl
@[simp] theorem State.setBranch_verbose (b : BranchSel) : (s.setBranch b).verbose = s.verbose := rfl
@[simp] theorem State.setBranch_halted (b : BranchSel) : (s.setBranch b).halted = s.halted := rfl
@[simp] theorem State.setBranch_pc (b : BranchSel) : (s.setBranch b).pc = s.pc := rfl
@[simp] theorem State.setBranch_branch (b : BranchSel) : (s.setBranch b).branch = b := rfl
@[simp] theorem State.setBranch_log (b : BranchSel) : (s.setBranch b).log = s.log := rfl
@[simp] theorem State.setBranch_prog (b : BranchSel) : (s.setBranch b).prog = s.prog := rfl

/-! `advance` -/

@[simp] theorem State.advance_regs : (advance s).regs = s.regs := rfl
@[simp] theorem State.advance_mem : (advance s).mem = s.mem := rfl
@[simp] theorem State.advance_verbose : (advance s).verbose = s.verbose := rfl
@[simp] theorem State.advance_halted : (advance s).halted = s.halted := rfl
@[simp] theorem State.advance_pc : (advance s).pc = s.pc + 1 := rfl
@[simp] theorem State.advance_branch : (advance s).branch = s.branch := rfl
@[simp] theorem State.advance_log : (advance s).log = s.log := rfl
@[simp] theorem State.advance_prog : (advance s).prog = s.prog := rfl

/-! `takeError` -/

@[simp] theorem State.takeError_regs (e : MachineError) : (takeError e s).regs = s.regs := rfl
@[simp] theorem State.takeError_mem (e : MachineError) : (takeError e s).mem = s.mem := rfl
@[simp] theorem State.takeError_verbose (e : MachineError) : (takeError e s).verbose = s.verbose := rfl
@[simp] theorem State.takeError_halted (e : MachineError) : (takeError e s).halted = s.halted := rfl
@[simp] theorem State.takeError_pc (e : MachineError) : (takeError e s).pc = s.pc := rfl
@[simp] theorem State.takeError_branch (e : MachineError) : (takeError e s).branch = s.branch := rfl
@[simp] theorem State.takeError_log (e : MachineError) : (takeError e s).log = s.log ++ [e.line] := rfl
@[simp] theorem State.takeError_prog (e : MachineError) : (takeError e s).prog = s.prog := rfl

/-! `load` -/

@[simp] theorem State.load_regs (p : Text) : (s.load p).regs = s.regs := rfl
@[simp] theorem State.load_mem (p : Text) : (s.load p).mem = s.mem := rfl
@[simp] theorem State.load_verbose (p : Text) : (s.load p).verbose = s.verbose := rfl
@[simp] theorem State.load_halted (p : Text) : (s.load p).halted = s.halted := rfl
@[simp] theorem State.load_pc (p : Text) : (s.load p).pc = s.pc := rfl
@[simp] theorem State.load_branch (p : Text) : (s.load p).branch = s.branch := rfl
@[simp] theorem State.load_log (p : Text) : (s.load p).log = s.log := rfl
@[simp] theorem State.load_prog (p : Text) : (s.load p).prog = p := rfl

/-! `start` -/

@[simp] theorem State.start_regs : s.start.regs = s.regs := rfl
@[simp] theorem State.start_mem : s.start.mem = s.mem := rfl
@[simp] theorem State.start_verbose : s.start.verbose = s.verbose := rfl
@[simp] theorem State.start_halted : s.start.halted = false := rfl
@[simp] theorem State.start_pc : s.start.pc = 0 := rfl
@[simp] theorem State.start_branch : s.start.branch = .takeNone := rfl
@[simp] theorem State.start_log : s.start.log = [] := rfl
@[simp] theorem State.start_prog : s.start.prog = s.prog := rfl

/-! `diag` -/

@[simp] theorem State.diag_regs (x : Text) : (s.diag x).regs = s.regs := by
  unfold State.diag; split <;> rfl
@[simp] theorem State.diag_mem (x : Text) : (s.diag x).mem = s.mem := by
  unfold State.diag; split <;> rfl
@[simp] theorem State.diag_verbose (x : Text) : (s.diag x).verbose = s.verbose := by
  unfold State.diag; split <;> rfl
@[simp] theorem State.diag_halted (x : Text) : (s.diag x).halted = s.halted := by
  unfold State.diag; split <;> rfl
@[simp] theorem State.diag_pc (x : Text) : (s.diag x).pc = s.pc := by
  unfold State.diag; split <;> rfl
@[simp] theorem State.diag_branch (x : Text) : (s.diag x).branch = s.branch := by
  unfold State.diag; split <;> rfl
@[simp] theorem State.diag_log (x : Text) : (s.diag x).log = s.log ++ diagLines s.verbose x := by
  cases h : s.verbose <;> simp [State.diag, diagLines, h]
@[simp] theorem State.diag_prog (x : Text) : (s.diag x).prog = s.prog := by
  unfold State.diag; split <;> rfl

/-! `writeLoc`: only the storage changes. -/

@[simp] theorem State.writeLoc_verbose (v : Byte) (l : Location) : (s.writeLoc v l).verbose = s.verbose := by
  cases l <;> rfl
@[simp] theorem State.writeLoc_halted (v : Byte) (l : Location) : (s.writeLoc v l).halted = s.halted := by
  cases l <;> rfl
@[simp] theorem State.writeLoc_pc (v : Byte) (l : Location) : (s.writeLoc v l).pc = s.pc := by
  cases l <;> rfl
@[simp] theorem State.writeLoc_branch (v : Byte) (l : Location) : (s.writeLoc v l).branch = s.branch := by
  cases l <;> rfl
@[simp] theorem State.writeLoc_log (v : Byte) (l : Location) : (s.writeLoc v l).log = s.log := by
  cases l <;> rfl
@[simp] theorem State.writeLoc_prog (v : Byte) (l : Location) : (s.writeLoc v l).prog = s.prog := by
  cases l <;> rfl

/-! Reads depend on one field. -/

theorem State.readReg_congr {s t : State} (h : t.regs = s.regs) (i : Fin 8) : t.readReg i = s.readReg i := by
  simp [State.readReg, h]

theorem State.memRead_congr {s t : State} (h : t.mem = s.mem) (a : Byte) : t.memRead a = s.memRead a := by
  simp [State.memRead, h]

theorem State.readLoc_congr {s t : State} (hr : t.regs = s.regs) (hm : t.mem = s.mem) (l : Location) :
    t.readLoc l = s.readLoc l := by
  cases l with
  | reg i => exact State.readReg_congr hr i
  | mem a => exact State.memRead_congr hm a

@[simp] theorem State.readLoc_diag (x : Text) (l : Location) : (s.diag x).readLoc l = s.readLoc l :=
  State.readLoc_congr (s.diag_regs x) (s.diag_mem x) l

@[simp] theorem State.readLoc_emit (x : Text) (l : Location) : (s.emit x).readLoc l = s.readLoc l :=
  State.readLoc_congr rfl rfl l

@[simp] theorem State.readLoc_takeError (e : MachineError) (l : Location) :
    (takeError e s).readLoc l = s.readLoc l :=
  State.readLoc_congr rfl rfl l

@[simp] theorem State.readLoc_setVerbose (b : Bool) (l : Location) :
    (s.setVerbose b).readLoc l = s.readLoc l :=
  State.readLoc_congr rfl rfl l

@[simp] theorem State.readLoc_setHalted (l : Location) : s.setHalted.readLoc l = s.readLoc l :=
  State.readLoc_congr rfl rfl l

@[simp] theorem State.readLoc_setBranch (b : BranchSel) (l : Location) :
    (s.setBranch b).readLoc l = s.readLoc l :=
  State.readLoc_congr rfl rfl l

@[simp] theorem State.readLoc_advance (l : Location) : (advance s).readLoc l = s.readLoc l :=
  State.readLoc_congr rfl rfl l

end Sys2Proof.Machine
end

