-- ==== Sys2Proof/Laws/Memory.lean ====
section
/-! SUPPORT. Memory: a read after a write, and the canonical form under every memory operation. -/

namespace Sys2Proof.Machine

theorem Memory.find_insert_same (a : Nat) (v : Byte) (m : List Host.Cell) (h : ∀ c ∈ m, c.1 ≠ a) :
    (Memory.insert (a, v) m).find? (fun c => c.1 == a) = some (a, v) := by
  induction m with
  | nil => simp [Memory.insert]
  | cons d ds ih =>
    have hd : d.1 ≠ a := h d List.mem_cons_self
    unfold Memory.insert
    split
    · simp
    · simpa [List.find?_cons, hd] using ih fun c hc => h c (List.mem_cons_of_mem d hc)

theorem Memory.find_insert_other {a b : Nat} (v : Byte) (m : List Host.Cell) (h : b ≠ a) :
    (Memory.insert (a, v) m).find? (fun c => c.1 == b) = m.find? (fun c => c.1 == b) := by
  induction m with
  | nil => simp [Memory.insert, Ne.symm h]
  | cons d ds ih =>
    unfold Memory.insert
    split
    · simp [List.find?_cons, Ne.symm h]
    · simp only [List.find?_cons]
      split
      · rfl
      · exact ih

theorem Memory.find_filter_other {a b : Nat} (m : List Host.Cell) (h : b ≠ a) :
    (m.filter (fun c => c.1 != a)).find? (fun c => c.1 == b) = m.find? (fun c => c.1 == b) := by
  induction m with
  | nil => rfl
  | cons d ds ih =>
    by_cases hd : d.1 = a
    · simp [hd, ih, Ne.symm h]
    · simp only [List.filter_cons, bne_iff_ne, ne_eq, hd, not_false_eq_true, if_true, List.find?_cons]
      split
      · rfl
      · exact ih

/-- A cell reads as what was last written to it. -/
theorem Memory.read_write_same (m : List Host.Cell) (a : Nat) (v : Byte) :
    Memory.read (Memory.write m a v) a = v := by
  have hne : ∀ c ∈ m.filter (fun c => c.1 != a), c.1 ≠ a := by
    intro c hc
    simpa using (List.mem_filter.mp hc).2
  unfold Memory.read Memory.write
  by_cases hv : v = Config.resetMem
  · have : (m.filter (fun c => c.1 != a)).find? (fun c => c.1 == a) = none := by
      rw [List.find?_eq_none]
      intro c hc
      simpa using hne c hc
    simp [hv, this]
  · simp [hv, Memory.find_insert_same a v _ hne]

/-- A write leaves every other cell alone. -/
theorem Memory.read_write_other (m : List Host.Cell) {a b : Nat} (v : Byte) (h : b ≠ a) :
    Memory.read (Memory.write m a v) b = Memory.read m b := by
  unfold Memory.read Memory.write
  by_cases hv : v = Config.resetMem
  · simp only [hv, if_true, Memory.find_filter_other m h]
  · simp only [hv, if_false, Memory.find_insert_other v _ h, Memory.find_filter_other m h]

theorem Memory.wf_cons {c : Host.Cell} {cs : List Host.Cell} :
    Memory.wf (c :: cs) = true ↔
      c.1 < Config.memSize ∧ c.2 ≠ Config.resetMem ∧ (∀ d ∈ cs, c.1 < d.1) ∧ Memory.wf cs = true := by
  simp [Memory.wf, List.all_eq_true, and_assoc]

theorem Memory.wf_filter (p : Host.Cell → Bool) (m : List Host.Cell) (h : Memory.wf m = true) :
    Memory.wf (m.filter p) = true := by
  induction m with
  | nil => rfl
  | cons c cs ih =>
    obtain ⟨ha, hv, hlt, hcs⟩ := Memory.wf_cons.mp h
    rw [List.filter_cons]
    split
    · exact Memory.wf_cons.mpr ⟨ha, hv, fun d hd => hlt d (List.mem_filter.mp hd).1, ih hcs⟩
    · exact ih hcs

theorem Memory.mem_insert {c d : Host.Cell} {m : List Host.Cell} (h : d ∈ Memory.insert c m) :
    d = c ∨ d ∈ m := by
  induction m with
  | nil => simpa [Memory.insert] using h
  | cons e es ih =>
    unfold Memory.insert at h
    split at h
    · simpa using h
    · rcases List.mem_cons.mp h with rfl | h
      · simp
      · rcases ih h with rfl | h <;> simp_all

theorem Memory.wf_insert {c : Host.Cell} {m : List Host.Cell} (ha : c.1 < Config.memSize)
    (hv : c.2 ≠ Config.resetMem) (hne : ∀ d ∈ m, d.1 ≠ c.1) (h : Memory.wf m = true) :
    Memory.wf (Memory.insert c m) = true := by
  induction m with
  | nil => exact Memory.wf_cons.mpr ⟨ha, hv, by simp, rfl⟩
  | cons d ds ih =>
    obtain ⟨hda, hdv, hdlt, hds⟩ := Memory.wf_cons.mp h
    have hdc : d.1 ≠ c.1 := hne d List.mem_cons_self
    unfold Memory.insert
    split
    · rename_i hlt
      refine Memory.wf_cons.mpr ⟨ha, hv, ?_, h⟩
      intro e he
      rcases List.mem_cons.mp he with rfl | he
      · exact hlt
      · exact lt_trans hlt (hdlt e he)
    · refine Memory.wf_cons.mpr ⟨hda, hdv, ?_, ih (fun e he => hne e (List.mem_cons_of_mem d he)) hds⟩
      intro e he
      rcases Memory.mem_insert he with rfl | he
      · omega
      · exact hdlt e he

/-- A write to a cell address keeps the canonical form. -/
theorem Memory.wf_write (m : List Host.Cell) {a : Nat} (v : Byte) (ha : a < Config.memSize)
    (h : Memory.wf m = true) : Memory.wf (Memory.write m a v) = true := by
  have hf := Memory.wf_filter (fun c => c.1 != a) m h
  unfold Memory.write
  split
  · exact hf
  · rename_i hv
    refine Memory.wf_insert ha hv ?_ hf
    intro d hd
    simpa using (List.mem_filter.mp hd).2

/-- Every byte address is a cell address (rule R21). -/
theorem byte_lt_memSize (a : Byte) : a.toNat < Config.memSize := a.isLt

theorem State.memWrite_wf (s : State) (a v : Byte) (h : Memory.wf s.mem = true) :
    Memory.wf (s.memWrite a v).mem = true :=
  Memory.wf_write s.mem v (byte_lt_memSize a) h

theorem State.reset_mem_wf : Memory.wf State.reset.mem = true := rfl

/-! ### Locations -/

/-- A location reads as what was last written to it. -/
@[simp] theorem State.readLoc_writeLoc_same (s : State) (v : Byte) (l : Location) :
    (s.writeLoc v l).readLoc l = v := by
  cases l with
  | reg i => simp [State.writeLoc, State.readLoc, State.readReg]
  | mem a => exact Memory.read_write_same s.mem a.toNat v

/-- A write to a location leaves every other location alone. -/
theorem State.readLoc_writeLoc_other (s : State) (v : Byte) {l m : Location} (h : m ≠ l) :
    (s.writeLoc v l).readLoc m = s.readLoc m := by
  cases l with
  | reg i =>
    cases m with
    | reg j =>
      have : i.val ≠ j.val := fun hij => h (by rw [Fin.ext hij])
      simp [State.writeLoc, State.readLoc, State.readReg, this]
    | mem b => rfl
  | mem a =>
    cases m with
    | reg j => rfl
    | mem b =>
      refine Memory.read_write_other s.mem v fun hab => h ?_
      rw [BitVec.eq_of_toNat_eq hab]

theorem State.writeLoc_wf (s : State) (v : Byte) (l : Location) (h : Memory.wf s.mem = true) :
    Memory.wf (s.writeLoc v l).mem = true := by
  cases l with
  | reg i => exact h
  | mem a => exact State.memWrite_wf s a v h

end Sys2Proof.Machine
end

