-- ==== Sys2Proof/Laws/Ops.lean ====
section
/-! SUPPORT. What each shared operation can do, said once: outcomes, the phases of an instruction, and the
rules the instructions share. -/

namespace Sys2Proof.Machine

/-! ### Outcomes -/

@[simp] theorem mapNext_next (f : State → State) (s : State) : mapNext f (.next s) = .next (f s) := rfl

@[simp] theorem andThen_next (s : State) (k : State → Outcome) : andThen (.next s) k = k s := rfl

/-- A mapped outcome is a next state only as the image of one. -/
theorem mapNext_eq_next {f : State → State} {o : Outcome} {t : State} :
    mapNext f o = .next t ↔ ∃ s, o = .next s ∧ f s = t := by
  cases o <;> simp [mapNext]

@[simp] theorem attempt_ok (s t : State) : attempt s (.ok t) = .next t := rfl

@[simp] theorem attempt_error (s : State) (e : MachineError) :
    attempt s (.error e) = .next (takeError e s) := rfl

/-- An attempted rule always answers a next state: its own, or the state after taking its error. -/
theorem attempt_eq_next {s t : State} {r : Except MachineError State} :
    attempt s r = .next t ↔ r = .ok t ∨ ∃ e, r = .error e ∧ t = takeError e s := by
  cases r <;> simp [attempt, eq_comm]

/-! ### The phases of an instruction -/

@[simp] theorem withPair_pair (d x : Operand) (k : Operand → Operand → Except MachineError State) :
    withPair (.pair d x) k = k d x := rfl

@[simp] theorem withPair_noSep (r : Text) (k : Operand → Operand → Except MachineError State) :
    withPair (.noSep r) k = .error (.malformedOperand r) := rfl

theorem withLoc_of_ok {d : Operand} {s : State} {l : Location} (h : loc d s = .ok l)
    (k : Location → Except MachineError State) : withLoc d s k = k l := by
  simp [withLoc, h]

theorem withLoc_of_error {d : Operand} {s : State} {e : MachineError} (h : loc d s = .error e)
    (k : Location → Except MachineError State) : withLoc d s k = .error e := by
  simp [withLoc, h]

theorem withValue_of_ok {x : Operand} {s : State} {v : Byte} (h : resolve x s = .ok v)
    (k : Byte → Except MachineError State) : withValue x s k = k v := by
  simp [withValue, h]

theorem withValue_of_error {x : Operand} {s : State} {e : MachineError} (h : resolve x s = .error e)
    (k : Byte → Except MachineError State) : withValue x s k = .error e := by
  simp [withValue, h]

/-- A located phase succeeds only at the operand's location. -/
theorem withLoc_eq_ok {d : Operand} {s t : State} {k : Location → Except MachineError State} :
    withLoc d s k = .ok t ↔ ∃ l, loc d s = .ok l ∧ k l = .ok t := by
  cases h : loc d s <;> simp [withLoc, h]

/-- A valued phase succeeds only with the operand's value. -/
theorem withValue_eq_ok {x : Operand} {s t : State} {k : Byte → Except MachineError State} :
    withValue x s k = .ok t ↔ ∃ v, resolve x s = .ok v ∧ k v = .ok t := by
  cases h : resolve x s <;> simp [withValue, h]

/-! ### The shared rules -/

/-- What `INIT` and `MOV` do when they succeed. -/
theorem moveRule_eq_ok {mn : Text} {f : PairForm} {s t : State} :
    moveRule mn f s = .ok t ↔ ∃ d x l v, f = .pair d x ∧ loc d s = .ok l ∧ resolve x s = .ok v ∧
      t = (s.writeLoc v l).diag (resultLine mn (operandText d) v) := by
  cases f with
  | noSep r => simp [moveRule]
  | pair d x => simp [moveRule, withLoc_eq_ok, withValue_eq_ok, @eq_comm State t]

/-- What `QMOV` does when it succeeds. -/
theorem qmovRule_eq_ok {f : PairForm} {s t : State} :
    qmovRule f s = .ok t ↔ ∃ d x l m, f = .pair d x ∧ loc d s = .ok l ∧ loc x s = .ok m ∧
      t = (((s.writeLoc (s.readLoc m) l).writeLoc 0#8 m).diag
        (resultLine (ascii ['Q', 'M', 'O', 'V']) (operandText d) (s.readLoc m))).diag
        (resultLine (ascii ['Q', 'M', 'O', 'V']) (operandText x) 0#8) := by
  cases f with
  | noSep r => simp [qmovRule]
  | pair d x => simp [qmovRule, withLoc_eq_ok, @eq_comm State t]

/-- What an arithmetic instruction does when it succeeds. -/
theorem aluRule_eq_ok {mn : Text} {op : Byte → Byte → Except MachineError Byte} {f : PairForm}
    {s t : State} :
    aluRule mn op f s = .ok t ↔ ∃ d x l b r, f = .pair d x ∧ loc d s = .ok l ∧ resolve x s = .ok b ∧
      op (s.readLoc l) b = .ok r ∧
      t = (s.writeLoc r l).diag (resultLine mn (operandText d) r) := by
  cases f with
  | noSep r => simp [aluRule]
  | pair d x =>
    simp only [aluRule, withPair_pair, withLoc_eq_ok, withValue_eq_ok, PairForm.pair.injEq]
    constructor
    · rintro ⟨l, hl, b, hb, h⟩
      cases ho : op (s.readLoc l) b with
      | error e => simp [ho] at h
      | ok r => exact ⟨d, x, l, b, r, ⟨rfl, rfl⟩, hl, hb, ho, by simpa [ho, eq_comm] using h⟩
    · rintro ⟨d', x', l, b, r, ⟨rfl, rfl⟩, hl, hb, ho, rfl⟩
      exact ⟨l, hl, b, hb, by simp [ho]⟩

/-- What `VER` does when it succeeds. -/
theorem verRule_eq_ok {f : ValueForm} {s t : State} :
    verRule f s = .ok t ↔ ∃ x v, f = .eq x ∧ resolve x s = .ok v ∧
      t = (s.setVerbose (v == 1#8)).diag (verLine s.verbose (v == 1#8)) := by
  cases f with
  | noEq r => simp [verRule]
  | eq x => simp [verRule, withValue_eq_ok, @eq_comm State t]

/-- What `HALT` does when it succeeds. -/
theorem haltRule_eq_ok {x : Operand} {s t : State} :
    haltRule x s = .ok t ↔ ∃ v, resolve x s = .ok v ∧
      t = (if v == 1#8 then s.setHalted else s).diag (haltLine (v == 1#8)) := by
  simp only [haltRule, withValue_eq_ok, Except.ok.injEq, @eq_comm State t]

/-- What `IF` does when it succeeds. -/
theorem ifRule_eq_ok {f : CondForm} {s t : State} :
    ifRule f s = .ok t ↔ ∃ b, evalCond f s = .ok b ∧ t = s.diag (ifLine f.text b) := by
  unfold ifRule
  cases h : evalCond f s <;> simp [@eq_comm State t]

/-! ### Error lines -/

/-- The fixed part of an error's message. -/
def MachineError.kindText : MachineError → Text
  | .invalidRegister _ =>
    ascii ['I', 'n', 'v', 'a', 'l', 'i', 'd', ' ', 'r', 'e', 'g', 'i', 's', 't', 'e', 'r', ':', ' ']
  | .malformedOperand _ =>
    ascii ['M', 'a', 'l', 'f', 'o', 'r', 'm', 'e', 'd', ' ', 'o', 'p', 'e', 'r', 'a', 'n', 'd', ':', ' ']
  | .invalidCondition _ =>
    ascii ['I', 'n', 'v', 'a', 'l', 'i', 'd', ' ', 'c', 'o', 'n', 'd', 'i', 't', 'i', 'o', 'n', ':', ' ']
  | .invalidOperator _ =>
    ascii ['I', 'n', 'v', 'a', 'l', 'i', 'd', ' ', 'o', 'p', 'e', 'r', 'a', 't', 'o', 'r', ':', ' ']
  | .unknownInstruction _ =>
    ascii ['U', 'n', 'k', 'n', 'o', 'w', 'n', ' ', 'i', 'n', 's', 't', 'r', 'u', 'c', 't', 'i', 'o', 'n',
      ':', ' ']
  | .divisionByZero => ascii ['D', 'i', 'v', 'i', 's', 'i', 'o', 'n', ' ', 'b', 'y', ' ', 'z', 'e', 'r', 'o']

theorem MachineError.message_take (e : MachineError) : e.message.take 9 = e.kindText.take 9 := by
  cases e <;> first | exact List.take_append_of_le_length (by decide) | rfl

/-- The error line names the error: kinds differ in their first letters, and the text follows. -/
theorem MachineError.line_injective {e e' : MachineError} (h : e.line = e'.line) : e = e' := by
  have h : e.message = e'.message := List.append_cancel_left h
  have hk : e.kindText.take 9 = e'.kindText.take 9 := by
    rw [← message_take, ← message_take, h]
  cases e with
  | invalidRegister t => cases e' with
    | invalidRegister t' => exact congrArg _ (List.append_cancel_left h)
    | _ => simp only [kindText] at hk; exact absurd hk (by decide)
  | malformedOperand t => cases e' with
    | malformedOperand t' => exact congrArg _ (List.append_cancel_left h)
    | _ => simp only [kindText] at hk; exact absurd hk (by decide)
  | invalidCondition t => cases e' with
    | invalidCondition t' => exact congrArg _ (List.append_cancel_left h)
    | _ => simp only [kindText] at hk; exact absurd hk (by decide)
  | invalidOperator t => cases e' with
    | invalidOperator t' => exact congrArg _ (List.append_cancel_left h)
    | _ => simp only [kindText] at hk; exact absurd hk (by decide)
  | unknownInstruction t => cases e' with
    | unknownInstruction t' => exact congrArg _ (List.append_cancel_left h)
    | _ => simp only [kindText] at hk; exact absurd hk (by decide)
  | divisionByZero => cases e' with
    | divisionByZero => rfl
    | _ => simp only [kindText] at hk; exact absurd hk (by decide)

end Sys2Proof.Machine
end

