-- ==== Sys2Proof/Laws/PerInstr.lean ====
section
/-! SUPPORT. Per-instruction statement about encodings: the first token of the line an instruction is encoded
as is the mnemonic of its row of the opcode table. -/

namespace Sys2Proof.Laws.Mnemonic

open Sys2Proof

/-- The first token of the encoded line selects the instruction's own opcode (rules R37, R39). -/
def Statement (i : Instr) : Prop := Opcode.ofToken? (token0 (encode i)) = some i.opcode

theorem ver (f : ValueForm) : Statement (.ver f) := by rfl
theorem init (f : PairForm) : Statement (.init f) := by rfl
theorem mov (f : PairForm) : Statement (.mov f) := by rfl
theorem qmov (f : PairForm) : Statement (.qmov f) := by rfl
theorem add (f : PairForm) : Statement (.add f) := by rfl
theorem sub (f : PairForm) : Statement (.sub f) := by rfl
theorem mul (f : PairForm) : Statement (.mul f) := by rfl
theorem div (f : PairForm) : Statement (.div f) := by rfl
theorem out (x : Operand) : Statement (.out x) := by rfl
theorem ifc (f : CondForm) : Statement (.ifc f) := by rfl
theorem clr (x : Operand) : Statement (.clr x) := by rfl
theorem halt (x : Operand) : Statement (.halt x) := by rfl

end Sys2Proof.Laws.Mnemonic
end

