-- ==== Sys2Proof/Laws/Sequencer.lean ====
section
/-! SUPPORT. What the line classifier can answer: the mode after a line is read off the line's class, and a
line's class off its own text and the mode before it. -/

namespace Sys2Proof.Machine

/-- The mode after a line of a class. -/
def modeAfter : LineClass → SegMode
  | .skip => .unit
  | .plain => .unit
  | .ifHead => .inIf
  | .ifBody => .inIf
  | .elseMark => .inElse
  | .elseBody => .inElse

/-- The mode before line `k` of classified lines that begin in mode `m`. -/
def modeBefore (m : SegMode) (lines : List (LineClass × Text)) : Nat → SegMode
  | 0 => m
  | j + 1 => (lines[j]?.map fun l => modeAfter l.1).getD .unit

theorem classifyUnit_mode (line : Text) : (classifyUnit line).2 = modeAfter (classifyUnit line).1 := by
  unfold classifyUnit
  split <;> [rfl; split <;> rfl]

theorem classifyLine_mode (m : SegMode) (line : Text) :
    (classifyLine m line).2 = modeAfter (classifyLine m line).1 := by
  cases m <;> simp only [classifyLine] <;> repeat' split
  all_goals first | rfl | exact classifyUnit_mode line

theorem classifyFrom_getElem? (lines : List Text) : ∀ (m : SegMode) (k : Nat) (line : Text),
    lines[k]? = some line → (classifyFrom m lines)[k]? =
      some ((classifyLine (modeBefore m (classifyFrom m lines) k) line).1, lineText line) := by
  induction lines with
  | nil => simp
  | cons a as ih =>
    intro m k line h
    cases k with
    | zero => simp at h; simp [h, classifyFrom, modeBefore]
    | succ k =>
      have := ih (classifyLine m a).2 k line (by simpa using h)
      simp only [classifyFrom, List.getElem?_cons_succ, this]
      cases k <;> simp [modeBefore, classifyLine_mode]

end Sys2Proof.Machine
end

