-- ==== Sys2Proof/Laws/Step.lean ====
section
/-! SUPPORT. What a step can do, said once, and the lengths of the Segmenter's outputs. -/

namespace Sys2Proof.Machine

@[simp] theorem classifyFrom_length (m : SegMode) (lines : List Text) :
    (classifyFrom m lines).length = lines.length := by
  induction lines generalizing m with
  | nil => rfl
  | cons l ls ih => simp [classifyFrom, ih]

@[simp] theorem classified_length (p : Text) : (classified p).length = lineCount p :=
  classifyFrom_length _ _

/-- There is a line at `pc` exactly when `pc` is below the number of lines. -/
theorem fetchLine_isSome {s : State} : (fetchLine s).isSome = true ↔ s.pc < lineCount s.prog := by
  simp [fetchLine]

/-- A step with a next state ran the line at `pc` of a machine that is not halted. -/
theorem step_eq_next {s t : State} :
    step s = .next t ↔ s.halted = false ∧ ∃ c x, fetchLine s = some (c, x) ∧ runLine c x s = .next t := by
  unfold step
  cases hh : s.halted with
  | true => simp
  | false =>
    cases hf : fetchLine s with
    | none => simp
    | some p => obtain ⟨c, x⟩ := p; simp

/-- Running a line is its action followed by the advance of `pc`. -/
theorem runLine_eq_next {c : LineClass} {x : Text} {s t : State} :
    runLine c x s = .next t ↔ ∃ u, lineAction c x s = .next u ∧ t = advance u := by
  simp [runLine, mapNext_eq_next, @eq_comm State t]

end Sys2Proof.Machine
end

