-- ==== Sys2Proof/Tests/Slice0.lean ====
section
/-! SUPPORT. Tests: expected results are taken from the worked examples and vectors of 95_test_vectors.md
(named in each comment). The witnesses at the end meet the hypotheses of the obligations. -/

namespace Sys2Proof.Tests

open Sys2Proof Sys2Proof.Machine

-- One proof at a time: many at once would each take a thread and its stack.
set_option Elab.async false

/-- A machine with the given registers and cells, everything else as after reset. -/
def withValues (regs : List (Fin 8 × Byte)) (cells : List (Byte × Byte)) : State :=
  cells.foldl (fun s c => s.memWrite c.1 c.2)
    (regs.foldl (fun s r => s.writeReg r.1 r.2) State.reset)

/-- Section 2.3's start state. -/
def stMove : State := withValues [(0, 5), (1, 7), (2, 16)] [(7, 99), (16, 7), (99, 123)]

/-- Section 2.4's start state. -/
def stArith : State :=
  withValues [(0, 250), (1, 3), (2, 16), (4, 255), (5, 7)] [(3, 100), (16, 200)]

/-- Section 2.5's and 2.6's start state. -/
def stSys : State := withValues [(0, 1), (1, 2)] [(2, 1)]

/-- The same, verbose. -/
def stVerbose : State := stSys.setVerbose true

/-- The state after executing one line, with its comment stripped and trimmed. -/
def after (line : String) (s : State) : State :=
  match execute (lineText (ofString line)) s with
  | .next t => t
  | .fault _ => s
  | .refused _ => s

/-- The next state of an outcome, which can be compared. -/
def nextOf : Outcome → Option State
  | .next t => some t
  | .fault _ => none
  | .refused _ => none

/-- The state with nothing but log lines added. -/
def logs (s : State) (lines : List String) : State := { s with log := lines.map ofString }

/-! ### Well-formedness: an ill-formed term for each check -/

theorem test_wf_refuses_badReg : Operand.wf (.mem (.badReg (ofString "R9"))) = false := by decide
theorem test_wf_refuses_bad : Operand.wf (.bad (ofString "12abc")) = false := by decide
theorem test_wfDest_refuses_literal : Operand.wfDest (.lit (.dec 5 [])) = false := by decide
theorem test_wfDest_refuses_badReg : Operand.wfDest (.badReg (ofString "R8")) = false := by decide
theorem test_wf_refuses_ver_without_eq : Instr.wf (.ver (.noEq (ofString "1"))) = false := by decide
theorem test_wf_refuses_pair_without_sep : Instr.wf (.mov (.noSep (ofString "R1 42"))) = false := by decide
theorem test_wf_refuses_bad_source : Instr.wf (.add (.pair (.reg 0) (.bad []))) = false := by decide
theorem test_wf_refuses_qmov_literal_source :
    Instr.wf (.qmov (.pair (.reg 1) (.lit (.dec 5 [])))) = false := by decide
theorem test_wf_refuses_qmov_without_sep : Instr.wf (.qmov (.noSep [])) = false := by decide
theorem test_wf_refuses_condition_without_op : Instr.wf (.ifc (.noOp (ofString "R0 = 5"))) = false := by decide
theorem test_wf_refuses_bad_side :
    Instr.wf (.ifc (.cmp (.badReg (ofString "R9")) [] .eq [] (.reg 0))) = false := by decide
theorem test_wf_refuses_clr_literal : Instr.wf (.clr (.lit (.dec 7 []))) = false := by decide
theorem test_wf_accepts : Instr.wf (.mov (.pair (.mem (.mem (.reg 1))) (.lit (.hex 21 [])))) = true := by decide

/-! ### Decoding: the bytes of section 3's programs, written out -/

/-- P2 line 0, `VER = 1`. -/
theorem test_decode_ver :
    decodeRaw [0x56#8, 0x45#8, 0x52#8, 0x20#8, 0x3D#8, 0x20#8, 0x31#8] =
      .instr (.ver (.eq (.lit (.dec 1 [])))) := by decide

/-- P1 line 0, `INIT R0 = 5`. -/
theorem test_decode_init :
    decodeRaw [0x49#8, 0x4E#8, 0x49#8, 0x54#8, 0x20#8, 0x52#8, 0x30#8, 0x20#8, 0x3D#8, 0x20#8, 0x35#8] =
      .instr (.init (.pair (.reg 0) (.lit (.dec 5 [])))) := by decide

/-- P2 line 3, `MOV R1, 0x10`. -/
theorem test_decode_mov :
    decodeRaw [0x4D#8, 0x4F#8, 0x56#8, 0x20#8, 0x52#8, 0x31#8, 0x2C#8, 0x20#8, 0x30#8, 0x78#8, 0x31#8,
      0x30#8] = .instr (.mov (.pair (.reg 1) (.lit (.hex 1 [0])))) := by decide

/-- P2 line 12, `QMOV R7, [0x12]`. -/
theorem test_decode_qmov :
    decodeRaw [0x51#8, 0x4D#8, 0x4F#8, 0x56#8, 0x20#8, 0x52#8, 0x37#8, 0x2C#8, 0x20#8, 0x5B#8, 0x30#8,
      0x78#8, 0x31#8, 0x32#8, 0x5D#8] =
      .instr (.qmov (.pair (.reg 7) (.mem (.lit (.hex 1 [2]))))) := by decide

/-- P2 line 6, `ADD R0, [R1]`. -/
theorem test_decode_add :
    decodeRaw [0x41#8, 0x44#8, 0x44#8, 0x20#8, 0x52#8, 0x30#8, 0x2C#8, 0x20#8, 0x5B#8, 0x52#8, 0x31#8,
      0x5D#8] = .instr (.add (.pair (.reg 0) (.mem (.reg 1)))) := by decide

/-- P3 line 5, `  SUB R0, 45`. -/
theorem test_decode_sub :
    decodeRaw [0x20#8, 0x20#8, 0x53#8, 0x55#8, 0x42#8, 0x20#8, 0x52#8, 0x30#8, 0x2C#8, 0x20#8, 0x34#8,
      0x35#8] = .instr (.sub (.pair (.reg 0) (.lit (.dec 4 [5])))) := by decide

/-- P3 line 1, `MUL R0, 100`. -/
theorem test_decode_mul :
    decodeRaw [0x4D#8, 0x55#8, 0x4C#8, 0x20#8, 0x52#8, 0x30#8, 0x2C#8, 0x20#8, 0x31#8, 0x30#8, 0x30#8] =
      .instr (.mul (.pair (.reg 0) (.lit (.dec 1 [0, 0])))) := by decide

/-- P4 line 1, `DIV R1, R2`. -/
theorem test_decode_div :
    decodeRaw [0x44#8, 0x49#8, 0x56#8, 0x20#8, 0x52#8, 0x31#8, 0x2C#8, 0x20#8, 0x52#8, 0x32#8] =
      .instr (.div (.pair (.reg 1) (.reg 2))) := by decide

/-- P3 line 8, `OUT 255`. -/
theorem test_decode_out :
    decodeRaw [0x4F#8, 0x55#8, 0x54#8, 0x20#8, 0x32#8, 0x35#8, 0x35#8] =
      .instr (.out (.lit (.dec 2 [5, 5]))) := by decide

/-- P2 line 8, `IF R0 < 200 ; wrapped`. -/
theorem test_decode_if :
    decodeRaw [0x49#8, 0x46#8, 0x20#8, 0x52#8, 0x30#8, 0x20#8, 0x3C#8, 0x20#8, 0x32#8, 0x30#8, 0x30#8,
      0x20#8, 0x3B#8, 0x20#8, 0x77#8, 0x72#8, 0x61#8, 0x70#8, 0x70#8, 0x65#8, 0x64#8] =
      .instr (.ifc (.cmp (.reg 0) [.space] .lt [.space] (.lit (.dec 2 [0, 0])))) := by decide

/-- P3 line 9, `CLR R0`. -/
theorem test_decode_clr :
    decodeRaw [0x43#8, 0x4C#8, 0x52#8, 0x20#8, 0x52#8, 0x30#8] = .instr (.clr (.reg 0)) := by decide

/-- P3 line 6, `  HALT 1`. -/
theorem test_decode_halt :
    decodeRaw [0x20#8, 0x20#8, 0x48#8, 0x41#8, 0x4C#8, 0x54#8, 0x20#8, 0x31#8] =
      .instr (.halt (.lit (.dec 1 []))) := by decide

/-- Section 2.7: lower case, and a mnemonic run together with its operand (section 2.1). -/
theorem test_decode_unknown :
    decodeRaw (ofString "mov R0, 1") = .unknown (ofString "mov") ∧
    decodeRaw (ofString "VER=1") = .unknown (ofString "VER=1") := by decide

/-- Section 2.6: `R0 => 5` is cut at `>`, and `1<2>3` at `>` before `<`. -/
theorem test_parseCondition_order :
    parseCondition (ofString "R0 => 5") = some (ofString "R0 =", .gt, ofString "5") ∧
    parseCondition (ofString "1<2>3") = some (ofString "1<2", .gt, ofString "3") ∧
    parseCondition (ofString "R0 >= 5") = some (ofString "R0", .ge, ofString "5") := by decide

/-- Section 2.2: the innermost failing text is the error's. -/
theorem test_operand_errors :
    parseOperand (ofString "[ 5 ]") = .mem (.bad (ofString " 5 ")) ∧
    parseOperand (ofString "[]") = .mem (.bad []) ∧
    parseOperand (ofString "[5") = .bad (ofString "[5") ∧
    parseOperand (ofString "0b12") = .bad (ofString "0b12") ∧
    parseOperand (ofString "R07") = .badReg (ofString "R07") := by decide

/-- The rows of the opcode table, the mnemonic alone as the line. -/
theorem test_tableWord_mov : decodeTableWord 24 0x564F4D = some (.mov (.noSep [])) := by decide
theorem test_tableWord_halt : decodeTableWord 32 0x544C4148 = some (.halt (.bad [])) := by decide

/-! ### Instructions -/

/-- Section 2.5: any operand; the line is gated by the new `V`. -/
theorem test_ver_register :
    after "VER = R0" stSys = logs (stSys.setVerbose true) ["VER: Verbosity 0 -> 1"] := by decide +kernel
theorem test_ver_two_clears_silently : after "VER = 2" stVerbose = stSys := by decide +kernel

/-- Section 2.3: the literal wraps. -/
theorem test_init_wraps : after "INIT R3 = 0x1FF" stMove = stMove.writeReg 3 255 := by decide +kernel
/-- Section 2.3: the destination's error comes first. -/
theorem test_init_error_order :
    after "INIT R8 = R9" stMove = logs stMove ["Error: Invalid register: R8"] := by decide +kernel

/-- Section 2.3: the address is the old register. -/
theorem test_mov_address_is_old : after "MOV R0, [R0]" stMove = stMove.writeReg 0 0 := by decide +kernel
/-- Section 2.3: the cut is at the first comma. -/
theorem test_mov_first_comma :
    after "MOV R3, R0, R1" stMove = logs stMove ["Error: Invalid register: R0, R1"] := by decide +kernel

/-- Section 2.3: the source address is the old register. -/
theorem test_qmov_indirect_source :
    after "QMOV R1, [R1]" stMove = (stMove.writeReg 1 99).memWrite 7 0 := by decide +kernel
/-- Section 2.3: copy, then clear. -/
theorem test_qmov_same_location : after "QMOV R1, R1" stMove = stMove.writeReg 1 0 := by decide +kernel

/-- Section 2.3: memory-indirect target. -/
theorem test_clr_indirect : after "CLR [[16]]" stMove = stMove.memWrite 7 0 := by decide +kernel
/-- Section 2.3: no diagnostic when verbose. -/
theorem test_clr_no_diagnostic : after "CLR R0" stVerbose = stVerbose.writeReg 0 0 := by decide

/-- Section 2.4. -/
theorem test_add_memory_wraps : after "ADD [R1], [R2]" stArith = stArith.memWrite 3 44 := by decide +kernel
/-- Section 2.4: the largest sum. -/
theorem test_add_largest : after "ADD R4, R4" stArith = stArith.writeReg 4 254 := by decide +kernel

/-- Section 2.4: 3 - 255. -/
theorem test_sub_wraps : after "SUB R1, R4" stArith = stArith.writeReg 1 4 := by decide +kernel
/-- Section 2.4, verbose. -/
theorem test_sub_diagnostic :
    after "SUB R0, 2" stVerbose = logs (stVerbose.writeReg 0 255) ["SUB: R0 = 11111111"] := by decide +kernel

/-- Section 2.4: the largest product. -/
theorem test_mul_largest : after "MUL R4, R4" stArith = stArith.writeReg 4 1 := by decide +kernel
theorem test_mul_wraps_to_zero : after "MUL R2, 16" stArith = stArith.writeReg 2 0 := by decide +kernel

/-- Section 2.4: the quotient is cut. -/
theorem test_div_floor : after "DIV [16], R1" stArith = stArith.memWrite 16 66 := by decide +kernel
/-- Section 2.4: the literal 256 is 0. -/
theorem test_div_by_zero :
    after "DIV R0, 256" stArith = logs stArith ["Error: Division by zero"] := by decide +kernel

/-- Section 2.5: the token as written, the value wrapped. -/
theorem test_out_wraps : after "OUT 260" stSys = logs stSys ["OUT: Output 260 = 00000100"] := by decide
theorem test_out_extra_text :
    after "OUT R1 2" stSys = logs stSys ["Error: Invalid register: R1 2"] := by decide

/-- Section 2.5. -/
theorem test_halt_257 : after "HALT 257" stSys = stSys.setHalted := by decide
theorem test_halt_two_goes_on :
    after "HALT R1" stVerbose = logs stVerbose ["HALT: execution continues"] := by decide

/-- Section 2.6: the condition as written. -/
theorem test_if_quotes_condition :
    after "IF R0 >  1" stVerbose = logs stVerbose ["IF: R0 >  1 = false"] := by decide +kernel
/-- Section 2.9: the condition is cut before its sides are resolved. -/
theorem test_if_invalid_condition :
    after "IF R9 = abc" stSys = logs stSys ["Error: Invalid condition: R9 = abc"] := by decide

/-! ### The Segmenter and steps -/

/-- S6: the source's Segmenter example. -/
theorem test_segment_source_example :
    segment (ofString "IF R0 == 0\n  MOV R1, 42\nELSE\n  MOV R1, 24") =
      [.cond (ofString "IF R0 == 0") [ofString "MOV R1, 42"] (some [ofString "MOV R1, 24"])] := by decide

/-- Section 2.8: a blank line ends the unit, and the `ELSE` after it is a stray line. -/
theorem test_classes_blank_line_ends_unit :
    (classified (ofString "IF 1 == 1\n\nELSE\n  OUT 1")).map Prod.fst = [.ifHead, .skip, .plain, .plain] := by
  decide

/-- Section 2.8: an indented `IF` in a block is a block line, and so is an indented `ELSE`. -/
theorem test_classes_no_nesting :
    (classified (ofString "IF 1 == 1\n  IF 1 == 2\n    OUT 1\n  ELSE\n    OUT 2")).map Prod.fst =
      [.ifHead, .ifBody, .ifBody, .ifBody, .ifBody] := by decide

/-- Section 2.8 and rule R34: a tab and a single space do not indent; the indentation is that of the line
without its comment. -/
theorem test_classes_tab_is_no_indent :
    (classified (ofString "IF 1 == 1\n\tOUT 1\nIF 1 == 1\n OUT 1\nIF 1 == 1\n  ; OUT 1")).map Prod.fst =
      [.ifHead, .plain, .ifHead, .plain, .ifHead, .ifBody] := by decide

/-- A step runs the line at `pc` and advances `pc` (`HALT R0` placed at line 0 of a machine with `R0 = 0`). -/
theorem test_step_placed_word :
    nextOf (step (State.reset.withFetchWord 56 0x305220544C4148)) =
      some (advance (State.reset.withFetchWord 56 0x305220544C4148)) := by decide +kernel

/-- Section 2.8: the run of the empty program is over after its one empty line. -/
theorem test_step_empty_program :
    nextOf (step State.reset) = some (advance State.reset) ∧
      step (advance State.reset) = .fault .endOfProgram := ⟨by decide, rfl⟩

/-! ### Witnesses: the hypotheses of the obligations can be met -/

/-- A well-formed instruction, an ill-formed one, and a line that decodes to the latter. -/
theorem witness_wf : Instr.wf (.div (.pair (.mem (.reg 0)) (.lit (.hex 15 [20])))) = true := by decide
theorem witness_ill_formed : Instr.wf (.qmov (.pair (.reg 0) (.lit (.dec 5 [])))) = false := by decide
theorem witness_decoded_line :
    decodeRaw (ofString " MOV R9 ,x; c") =
      .instr (.mov (.pair (.badReg (ofString "R9")) (.bad (ofString "x")))) := by decide +kernel

/-- A trimmed condition text with uneven whitespace. -/
theorem witness_trimmed_condition : trim (ofString "R0 >  1") = ofString "R0 >  1" := by decide

/-- Both clauses on register texts, at the boundary digits 7 and 8. -/
theorem witness_register_text :
    (ofString "7" = [BitVec.ofNat 8 (0x30 + (7 : Fin 8).val)]) ∧
    (∀ i : Fin 8, ofString "8" ≠ [BitVec.ofNat 8 (0x30 + i.val)]) := by decide

/-- Condition texts with and without an operator, and a text that is no operator. -/
theorem witness_condition_cut :
    parseCondition (ofString "R0 > 1 == 1") = some (ofString "R0 > 1", .eq, ofString "1") ∧
    parseCondition (ofString "R0 = 5") = none ∧
    (∀ o ∈ CmpOp.searchOrder, ofString "=" ≠ o.text) := by decide

/-- Digit characters with their values at the ends of each range, characters next to them that are none, and a
text that begins with a digit and is no literal. -/
theorem witness_literal_digits :
    (∀ p ∈ [(0x30#8, 0), (0x31#8, 1)], p ∈ (ofString "01").zip [0, 1]) ∧
    (∀ p ∈ [(0x30#8, 0), (0x39#8, 9), (0x61#8, 10), (0x66#8, 15), (0x41#8, 10), (0x46#8, 15)],
      p ∈ (ofString "0123456789abcdefABCDEF").zip
        [0, 1, 2, 3, 4, 5, 6, 7, 8, 9, 10, 11, 12, 13, 14, 15, 10, 11, 12, 13, 14, 15]) ∧
    (∀ p ∈ [(0x30#8, 0), (0x39#8, 9)], p ∈ (ofString "0123456789").zip [0, 1, 2, 3, 4, 5, 6, 7, 8, 9]) ∧
    0x32#8 ∉ ofString "01" ∧ 0x67#8 ∉ ofString "0123456789abcdefABCDEF" ∧
    (∃ b ∈ ofString "12abc", b ∉ ofString "0123456789") ∧ ¬ ofString "0b" <+: ofString "12abc" ∧
    ¬ ofString "0x" <+: ofString "12abc" ∧ ¬ ofString "R" <+: ofString "12abc" ∧
    ¬ ofString "[" <+: ofString "12abc" := by decide

/-- Texts without a separator, and one that does not begin with `=`. -/
theorem witness_formats :
    0x2C#8 ∉ ofString "R0 " ∧ 0x3D#8 ∉ ofString "R0 " ∧ (ofString "1 =").head? ≠ some 0x3D#8 := by decide

/-- Lines with a mnemonic as token 0, alone and with a rest that lacks its separator, and one with none. -/
theorem witness_dispatch :
    token0 (ofString "HALT") = ofString "HALT" ∧ token0 (ofString "MOV R1 42") = ofString "MOV" ∧
    token0 (ofString "HALTS") ∉ [ofString "VER", ofString "INIT", ofString "MOV", ofString "QMOV",
      ofString "ADD", ofString "SUB", ofString "MUL", ofString "DIV", ofString "OUT", ofString "IF",
      ofString "CLR", ofString "HALT"] := by decide

/-- Rule R51: an operand that is missing, and a separator that is missing. -/
theorem test_decode_missing_parts :
    decodeLine (ofString "HALT") = .instr (.halt (.bad [])) ∧
    decodeLine (ofString "MOV R1 42") = .instr (.mov (.noSep (ofString "R1 42"))) := by decide

/-- A text without `;` and one before it. -/
theorem witness_comment : (0x3B#8 ∉ ofString "OUT 1") := by decide

/-- A base with a value, and one with an error, under brackets. -/
theorem witness_operand_base :
    resolve (operandBase (.mem (.mem (.lit (.dec 1 [6]))))) stMove = .ok 16#8 ∧
    resolve (operandBase (.mem (.badReg (ofString "R9")))) stMove =
      .error (.invalidRegister (ofString "R9")) := ⟨rfl, rfl⟩

/-- A destination in memory and a source with a value: `INIT`, `MOV`, `ADD`, `SUB`, `MUL`, `DIV`. -/
theorem witness_pair_completes :
    loc (.mem (.reg 1)) stMove = .ok (.mem 7#8) ∧ resolve (.lit (.dec 2 [5, 5])) stMove = .ok 255#8 ∧
      (255#8 : Byte) ≠ 0#8 := ⟨rfl, rfl, by decide⟩

/-- Two locations, distinct and equal, and a third location: `QMOV`; a location: `CLR`. -/
theorem witness_qmov :
    loc (.reg 3) stMove = .ok (.reg 3) ∧ loc (.mem (.mem (.lit (.dec 1 [6])))) stMove = .ok (.mem 7#8) ∧
      loc (.mem (.lit (.dec 7 []))) stMove = .ok (.mem 7#8) ∧ Location.reg 3 ≠ .mem 7#8 ∧
      Location.reg 0 ≠ .reg 3 ∧ Location.reg 0 ≠ .mem 7#8 := ⟨rfl, rfl, rfl, by decide, by decide, by decide⟩

/-- A value that is 1 and one that is not: `VER`, `OUT`, `HALT`. -/
theorem witness_value :
    resolve (.mem (.reg 1)) stSys = .ok 1#8 ∧ resolve (.reg 1) stSys = .ok 2#8 := ⟨rfl, rfl⟩

/-- Both sides of a condition with values: `IF`. -/
theorem witness_condition_values :
    resolve (.reg 0) stSys = .ok 1#8 ∧ resolve (.lit (.dec 2 [5, 6])) stSys = .ok 0#8 := ⟨rfl, rfl⟩

/-- A line whose first token is no mnemonic. -/
theorem witness_unknown :
    ofString "FOO R0" ≠ [] ∧ ∀ o ∈ Opcode.all, o.mnemonic ≠ token0 (ofString "FOO R0") := by decide

/-- The opcodes listed are all opcodes. -/
theorem witness_all_opcodes (o : Opcode) : o ∈ Opcode.all := by cases o <;> decide

/-- Operand errors, of a destination and of a source after a good destination. -/
theorem witness_operand_errors :
    loc (.lit (.dec 5 [])) stMove = .error (.malformedOperand (ofString "5")) ∧
    loc (.reg 0) stMove = .ok (.reg 0) ∧
    resolve (.badReg (ofString "R9")) stMove = .error (.invalidRegister (ofString "R9")) ∧
    resolve (.reg 0) stMove = .ok 5#8 := ⟨rfl, rfl, rfl, rfl⟩

/-- A zero divisor, and a state in which the error it raises is taken; an error that is no division. -/
theorem witness_division :
    resolve (.lit (.dec 2 [5, 6])) stArith = .ok 0#8 ∧
    exec (.div (.pair (.reg 0) (.lit (.dec 2 [5, 6])))) stArith =
      .next (takeError .divisionByZero stArith) ∧
    exec (.out (.bad [])) stArith = .next (takeError (.malformedOperand []) stArith) := ⟨rfl, rfl, rfl⟩

/-- A line that appends an error line. -/
theorem witness_failed_line :
    nextOf (execute (ofString "FOO") State.reset) = some (logs State.reset ["Error: Unknown instruction: FOO"]) ∧
    (ofString "Error: " ++ ofString "Unknown instruction: FOO") ∈
      (logs State.reset ["Error: Unknown instruction: FOO"]).log.drop State.reset.log.length := by decide +kernel

/-- An instruction with a next state and a location it does not write; one from a halted state. -/
theorem witness_exec_next :
    exec (.mov (.pair (.reg 0) (.reg 1))) stMove.setHalted = .next (stMove.setHalted.writeReg 0 7) ∧
    (∀ d ∈ writtenOperands (.mov (.pair (.reg 0) (.reg 1))), loc d stMove.setHalted ≠ .ok (.mem 0#8)) ∧
    (∀ f, Instr.mov (.pair (.reg 0) (.reg 1)) ≠ .ver f) ∧
    (∀ x, Instr.mov (.pair (.reg 0) (.reg 1)) ≠ .halt x) := by
  refine ⟨rfl, ?_, by simp, by simp⟩
  intro d hd
  have : d = .reg 0 := by simpa [writtenOperands, pairDests] using hd
  subst this
  simp [loc]

/-- A program with a line of every class, at line `k`, with the branch latch set. -/
def stProg (k : Nat) (b : BranchSel) : State :=
  { State.reset with
    prog := ofString "OUT 1\n\nIF R0 == 0\n  OUT 2\nELSE\n  OUT 3", pc := k, branch := b }

theorem witness_line_classes :
    (stProg 0 .takeNone).halted = false ∧
    fetchLine (stProg 0 .takeNone) = some (.plain, ofString "OUT 1") ∧
    decodeLine (ofString "OUT 1") = .instr (.out (.lit (.dec 1 []))) ∧
    fetchLine (stProg 1 .takeNone) = some (.skip, []) ∧
    fetchLine (stProg 2 .takeNone) = some (.ifHead, ofString "IF R0 == 0") ∧
    fetchLine (stProg 3 .takeIf) = some (.ifBody, ofString "OUT 2") ∧
    fetchLine (stProg 4 .takeIf) = some (.elseMark, ofString "ELSE") ∧
    fetchLine (stProg 5 .takeElse) = some (.elseBody, ofString "OUT 3") := by decide

/-- The lines of the same program, of which every class has one. -/
theorem witness_line_texts :
    splitLines (stProg 0 .takeNone).prog = [ofString "OUT 1", [], ofString "IF R0 == 0", ofString "  OUT 2",
      ofString "ELSE", ofString "  OUT 3"] := by decide

/-- The head's condition true, false and in error. -/
theorem witness_head_conditions :
    evalCond (parseCondForm (ofString "R0 == 0")) State.reset = .ok true ∧
    evalCond (parseCondForm (ofString "R0 > 0")) State.reset = .ok false ∧
    evalCond (parseCondForm (ofString "R9 > 0")) State.reset =
      .error (.invalidRegister (ofString "R9")) := by decide +kernel

/-- An enabled state, a halted one, and one at the end of its program. -/
theorem witness_enabled : (stProg 0 .takeNone).Enabled := ⟨rfl, by decide⟩
theorem witness_run_over :
    (stProg 0 .takeNone).setHalted.halted = true ∧ (stProg 6 .takeNone).halted = false ∧
      lineCount (stProg 6 .takeNone).prog ≤ (stProg 6 .takeNone).pc := by decide

/-- A state that meets the invariant, with a next state. -/
theorem witness_invariant :
    stMove.Inv ∧ nextOf (step stMove) = some (advance stMove) := ⟨⟨by decide +kernel, by decide +kernel⟩, by decide +kernel⟩

/-- `HALT 1` and an `IF` with a next state. -/
theorem witness_halt :
    exec (.halt (.reg 0)) stSys = .next stSys.setHalted ∧
    exec (.ifc (.cmp (.reg 0) [] .eq [] (.reg 1))) stSys = .next stSys := ⟨rfl, rfl⟩

/-- A log of two lines without a line feed, one of them empty. -/
theorem witness_log :
    (logs State.reset ["a", ""]).log ≠ [] ∧
      ∀ l ∈ (logs State.reset ["a", ""]).log, 0x0A#8 ∉ l := by decide

end Sys2Proof.Tests
end

/-! SUPPORT. The state family: what an instruction can do to the state, said once as `Effect`; what the action
of a line keeps, said once as `LineFrame`; and the statements about the state that follow from them. -/

namespace Sys2Proof.Machine

/-! ### The rule an instruction attempts -/

/-- The rule of an instruction, before an error it raises is taken (rules R32, R95). -/
def instrRule : Instr → State → Except MachineError State
  | .ver f => verRule f
  | .init f => moveRule (ascii ['I', 'N', 'I', 'T']) f
  | .mov f => moveRule (ascii ['M', 'O', 'V']) f
  | .qmov f => qmovRule f
  | .add f => aluRule (ascii ['A', 'D', 'D']) addOp f
  | .sub f => aluRule (ascii ['S', 'U', 'B']) subOp f
  | .mul f => aluRule (ascii ['M', 'U', 'L']) mulOp f
  | .div f => aluRule (ascii ['D', 'I', 'V']) divOp f
  | .out x => fun s => withValue x s fun v => .ok (s.emit (outLine (operandText x) v))
  | .ifc f => ifRule f
  | .clr x => fun s => withLoc x s fun l => .ok (s.writeLoc 0#8 l)
  | .halt x => haltRule x

/-- Executing an instruction is attempting its rule. -/
theorem exec_eq_attempt (i : Instr) (s : State) : exec i s = attempt s (instrRule i s) := by
  cases i <;> rfl

/-- An instruction whose rule succeeds completes with the rule's state. -/
theorem exec_of_instrRule_ok {i : Instr} {s t : State} (h : instrRule i s = .ok t) : exec i s = .next t := by
  rw [exec_eq_attempt, h, attempt_ok]

/-- Every instruction answers a next state in every state (rules R72, R95). -/
theorem exec_completes (i : Instr) (s : State) : ∃ t, exec i s = .next t := by
  rw [exec_eq_attempt]
  cases instrRule i s with
  | ok t => exact ⟨t, rfl⟩
  | error e => exact ⟨takeError e s, rfl⟩

/-! ### What an instruction can do to the state -/

/-- The ways an instruction can change the state: it takes an error, appends a line, or writes locations its
written operands name; `VER` sets `V`, and `HALT` sets `H` or only logs. -/
inductive Effect : Instr → State → State → Prop where
  | error {i s} (e : MachineError) : Effect i s (takeError e s)
  | outputs {s} (x : Operand) (line : Text) : Effect (.out x) s (s.emit line)
  | logs {i s} (line : Text) : Effect i s (s.diag line)
  | writes {i s} {d : Operand} {l : Location} (v : Byte) (line : Text) (hd : d ∈ writtenOperands i)
      (hl : loc d s = .ok l) : Effect i s ((s.writeLoc v l).diag line)
  | clears {i s} {d : Operand} {l : Location} (hd : d ∈ writtenOperands i) (hl : loc d s = .ok l) :
      Effect i s (s.writeLoc 0#8 l)
  | moves {i s} {d x : Operand} {l m : Location} (line line' : Text) (hd : d ∈ writtenOperands i)
      (hl : loc d s = .ok l) (hx : x ∈ writtenOperands i) (hm : loc x s = .ok m) :
      Effect i s ((((s.writeLoc (s.readLoc m) l).writeLoc 0#8 m).diag line).diag line')
  | setsVerbose {s} {x : Operand} {v : Byte} (line : Text) (hv : resolve x s = .ok v) :
      Effect (.ver (.eq x)) s ((s.setVerbose (v == 1#8)).diag line)
  | setsHalted {s} {x : Operand} (line : Text) (hx : resolve x s = .ok 1#8) :
      Effect (.halt x) s (s.setHalted.diag line)

/-- The rule `INIT` and `MOV` share writes the destination. -/
theorem Effect.of_moveRule {i : Instr} {mn : Text} {f : PairForm} {s t : State}
    (hi : writtenOperands i = pairDests f) (h : moveRule mn f s = .ok t) : Effect i s t := by
  obtain ⟨d, x, l, v, rfl, hl, -, rfl⟩ := moveRule_eq_ok.1 h
  exact .writes v _ (by simp [hi, pairDests]) hl

/-- The rule the four arithmetic instructions share writes the destination. -/
theorem Effect.of_aluRule {i : Instr} {mn : Text} {op : Byte → Byte → Except MachineError Byte}
    {f : PairForm} {s t : State} (hi : writtenOperands i = pairDests f) (h : aluRule mn op f s = .ok t) :
    Effect i s t := by
  obtain ⟨d, x, l, b, r, rfl, hl, -, -, rfl⟩ := aluRule_eq_ok.1 h
  exact .writes r _ (by simp [hi, pairDests]) hl

/-- A rule that succeeds has one of the effects. -/
theorem Effect.of_instrRule {i : Instr} {s t : State} (h : instrRule i s = .ok t) : Effect i s t := by
  cases i with
  | ver f =>
    obtain ⟨x, v, rfl, hv, rfl⟩ := verRule_eq_ok.1 h
    exact .setsVerbose _ hv
  | init f => exact .of_moveRule rfl h
  | mov f => exact .of_moveRule rfl h
  | qmov f =>
    obtain ⟨d, x, l, m, rfl, hl, hm, rfl⟩ := qmovRule_eq_ok.1 h
    exact .moves _ _ (by simp [writtenOperands, pairBothDests]) hl
      (by simp [writtenOperands, pairBothDests]) hm
  | add f => exact .of_aluRule (op := addOp) rfl h
  | sub f => exact .of_aluRule (op := subOp) rfl h
  | mul f => exact .of_aluRule (op := mulOp) rfl h
  | div f => exact .of_aluRule (op := divOp) rfl h
  | out x =>
    obtain ⟨v, -, hv⟩ := withValue_eq_ok.1 h
    cases hv
    exact .outputs ..
  | ifc f =>
    obtain ⟨b, -, rfl⟩ := ifRule_eq_ok.1 h
    exact .logs _
  | clr x =>
    obtain ⟨l, hl, hw⟩ := withLoc_eq_ok.1 h
    cases hw
    exact .clears (by simp [writtenOperands]) hl
  | halt x =>
    obtain ⟨v, hv, rfl⟩ := haltRule_eq_ok.1 h
    by_cases h1 : v = 1#8
    · subst h1
      exact .setsHalted _ hv
    · rw [if_neg (by simpa using h1)]
      exact .logs _

/-- Every next state of an instruction is one of its effects. -/
theorem Effect.of_exec {i : Instr} {s t : State} (h : exec i s = .next t) : Effect i s t := by
  rw [exec_eq_attempt] at h
  rcases attempt_eq_next.1 h with hr | ⟨e, -, rfl⟩
  · exact .of_instrRule hr
  · exact .error e

section
variable {i : Instr} {s t : State}

/-- Storage: a location no written operand names is kept (rule R6). -/
theorem Effect.readLoc (h : Effect i s t) {k : Location} (hk : ∀ d ∈ writtenOperands i, loc d s ≠ .ok k) :
    t.readLoc k = s.readLoc k := by
  have ne_of_loc {d l} (hd : d ∈ writtenOperands i) (hl : loc d s = .ok l) : k ≠ l := by
    rintro rfl
    exact hk d hd hl
  cases h with
  | writes v line hd hl => simp [State.readLoc_writeLoc_other _ _ (ne_of_loc hd hl)]
  | clears hd hl => exact State.readLoc_writeLoc_other _ _ (ne_of_loc hd hl)
  | moves line line' hd hl hx hm =>
    simp [State.readLoc_writeLoc_other _ _ (ne_of_loc hd hl),
      State.readLoc_writeLoc_other _ _ (ne_of_loc hx hm)]
  | _ => simp

/-- Memory stays in canonical form (rules R7, R21). -/
theorem Effect.mem_wf (h : Effect i s t) (hs : Memory.wf s.mem = true) : Memory.wf t.mem = true := by
  cases h with
  | writes v line hd hl => simpa using State.writeLoc_wf _ _ _ hs
  | clears hd hl => exact State.writeLoc_wf _ _ _ hs
  | moves line line' hd hl hx hm => simpa using State.writeLoc_wf _ _ _ (State.writeLoc_wf _ _ _ hs)
  | _ => simpa using hs

/-- Only `VER` writes `V` (rule R8). -/
theorem Effect.verbose (h : Effect i s t) (hi : ∀ f, i ≠ .ver f) : t.verbose = s.verbose := by
  cases h with
  | setsVerbose line hv => exact absurd rfl (hi _)
  | _ => simp

/-- Only `HALT` writes `H` (rule R9). -/
theorem Effect.halted (h : Effect i s t) (hi : ∀ x, i ≠ .halt x) : t.halted = s.halted := by
  cases h with
  | setsHalted line hx => exact absurd rfl (hi _)
  | _ => simp

/-- No instruction clears `H` (rule R9). -/
theorem Effect.halted_of_halted (h : Effect i s t) (hs : s.halted = true) : t.halted = true := by
  cases h <;> simp [hs]

/-- No instruction writes `pc`, `B` or `PROG` (rules R10, R11, R13). -/
theorem Effect.sequencing (h : Effect i s t) : t.pc = s.pc ∧ t.branch = s.branch ∧ t.prog = s.prog := by
  cases h <;> simp

theorem diagLines_length_le (b : Bool) (line : Text) : (diagLines b line).length ≤ 1 := by
  cases b <;> simp [diagLines]

/-- `LOG` grows at its end by at most two lines (rules R12, R58, R71, R95). -/
theorem Effect.log (h : Effect i s t) : ∃ added : List Text, added.length ≤ 2 ∧ t.log = s.log ++ added := by
  cases h with
  | error e => exact ⟨[e.line], by simp, rfl⟩
  | outputs x line => exact ⟨[line], by simp, rfl⟩
  | logs line =>
    exact ⟨_, (diagLines_length_le _ line).trans (by simp), s.diag_log line⟩
  | writes v line hd hl =>
    exact ⟨_, (diagLines_length_le s.verbose line).trans (by simp), by simp⟩
  | clears hd hl => exact ⟨[], by simp, by simp⟩
  | moves line line' hd hl hx hm =>
    refine ⟨diagLines s.verbose line ++ diagLines s.verbose line', ?_, by simp⟩
    rw [List.length_append]
    exact Nat.add_le_add (diagLines_length_le _ _) (diagLines_length_le _ _)
  | setsVerbose line hv =>
    exact ⟨_, (diagLines_length_le _ line).trans (by simp), State.diag_log _ line⟩
  | setsHalted line hx =>
    exact ⟨_, (diagLines_length_le s.verbose line).trans (by simp), by simp⟩

end

/-! ### Executing one line -/

/-- A line that decodes to an instruction is executed as it (rule R37). -/
theorem execute_of_instr {x : Text} {i : Instr} (h : decodeLine x = .instr i) (s : State) :
    execute x s = exec i s := by
  simp [execute, h]

/-- Executing a line answers a next state in every state (rules R50, R92, R95). -/
theorem execute_completes (x : Text) (s : State) : ∃ t, execute x s = .next t := by
  unfold execute
  cases decodeLine x with
  | empty => exact ⟨s, rfl⟩
  | unknown tok => exact ⟨_, rfl⟩
  | instr i => exact exec_completes i s

/-- The next state of a line: no other for the empty line, the Unknown Instruction error, or its
instruction's (rules R37, R49, R50). -/
theorem execute_eq_next {x : Text} {s t : State} (h : execute x s = .next t) :
    t = s ∨ (∃ tok, t = takeError (.unknownInstruction tok) s) ∨
      ∃ i, decodeLine x = .instr i ∧ exec i s = .next t := by
  unfold execute at h
  cases hx : decodeLine x with
  | empty => simp only [hx] at h; cases h; exact .inl rfl
  | unknown tok => simp only [hx] at h; cases h; exact .inr (.inl ⟨_, rfl⟩)
  | instr i => simp only [hx] at h; exact .inr (.inr ⟨i, rfl, h⟩)

/-- A line's action does nothing, executes the line, or executes it and selects a block (rule R86). -/
theorem lineAction_cases (c : LineClass) (x : Text) (s : State) :
    lineAction c x s = .next s ∨ lineAction c x s = execute x s ∨
      lineAction c x s = mapNext (selectBranch x) (execute x s) := by
  cases c with
  | skip => exact .inl rfl
  | elseMark => exact .inl rfl
  | plain => exact .inr (.inl rfl)
  | ifHead => exact .inr (.inr rfl)
  | ifBody => exact (ite_eq_or_eq ..).elim (fun h => .inr (.inl h)) .inl
  | elseBody => exact (ite_eq_or_eq ..).elim (fun h => .inr (.inl h)) .inl

/-- The action of a line of any class answers a next state in every state (rule R86). -/
theorem lineAction_completes (c : LineClass) (x : Text) (s : State) : ∃ t, lineAction c x s = .next t := by
  obtain ⟨t, ht⟩ := execute_completes x s
  rcases lineAction_cases c x s with h | h | h
  · exact ⟨s, h⟩
  · exact ⟨t, h.trans ht⟩
  · exact ⟨selectBranch x t, by rw [h, ht, mapNext_next]⟩

/-! ### What the action of a line keeps -/

/-- What every line keeps before `pc` advances: `pc` and `PROG`, the old `LOG` at the front, and memory's
canonical form. -/
structure LineFrame (s t : State) : Prop where
  pc : t.pc = s.pc
  prog : t.prog = s.prog
  log : ∃ added : List Text, t.log = s.log ++ added
  mem_wf : Memory.wf s.mem = true → Memory.wf t.mem = true

theorem LineFrame.refl (s : State) : LineFrame s s := ⟨rfl, rfl, ⟨[], by simp⟩, id⟩

theorem LineFrame.of_exec {i : Instr} {s t : State} (h : exec i s = .next t) : LineFrame s t := by
  have he := Effect.of_exec h
  obtain ⟨hpc, -, hprog⟩ := he.sequencing
  obtain ⟨added, -, hlog⟩ := he.log
  exact ⟨hpc, hprog, ⟨added, hlog⟩, he.mem_wf⟩

theorem LineFrame.of_execute {x : Text} {s t : State} (h : execute x s = .next t) : LineFrame s t := by
  rcases execute_eq_next h with rfl | ⟨tok, rfl⟩ | ⟨i, -, hi⟩
  · exact .refl t
  · exact ⟨rfl, rfl, ⟨_, State.takeError_log s _⟩, id⟩
  · exact .of_exec hi

theorem LineFrame.of_lineAction {c : LineClass} {x : Text} {s t : State} (h : lineAction c x s = .next t) :
    LineFrame s t := by
  rcases lineAction_cases c x s with hc | hc | hc <;> rw [hc] at h
  · cases h
    exact .refl s
  · exact .of_execute h
  · obtain ⟨u, hu, rfl⟩ := mapNext_eq_next.1 h
    obtain ⟨hpc, hprog, hlog, hwf⟩ := LineFrame.of_execute hu
    exact ⟨hpc, hprog, hlog, hwf⟩

/-! ### Steps -/

/-- A step of a machine that is not halted runs the line at `pc`. -/
theorem step_of_fetchLine {s : State} {c : LineClass} {x : Text} (hh : s.halted = false)
    (hf : fetchLine s = some (c, x)) : step s = mapNext advance (lineAction c x s) := by
  simp [step, hh, hf, runLine]

/-- A line of the if-block runs when `B` selects it (rule R86). -/
theorem step_of_ifBody {s : State} {x : Text} (hh : s.halted = false) (hf : fetchLine s = some (.ifBody, x))
    (hb : s.branch = .takeIf) : step s = mapNext advance (execute x s) := by
  rw [step_of_fetchLine hh hf, lineAction, if_pos hb]

/-- A line of the else-block runs when `B` selects it (rule R86). -/
theorem step_of_elseBody {s : State} {x : Text} (hh : s.halted = false)
    (hf : fetchLine s = some (.elseBody, x)) (hb : s.branch = .takeElse) :
    step s = mapNext advance (execute x s) := by
  rw [step_of_fetchLine hh hf, lineAction, if_pos hb]

/-- In an enabled state a step answers a next state (rules R86, R104). -/
theorem step_completes {s : State} (h : s.Enabled) : ∃ t, step s = .next t := by
  obtain ⟨hh, hpc⟩ := h
  obtain ⟨⟨c, x⟩, hf⟩ := Option.isSome_iff_exists.1 (fetchLine_isSome.2 hpc)
  obtain ⟨t, ht⟩ := lineAction_completes c x s
  exact ⟨advance t, by rw [step_of_fetchLine hh hf, ht, mapNext_next]⟩

/-- A step with a next state was enabled, ran an action that keeps a line's frame, and advanced `pc`. -/
theorem step_frame {s t : State} (h : step s = .next t) :
    s.Enabled ∧ ∃ u, LineFrame s u ∧ t = advance u := by
  obtain ⟨hh, c, x, hf, hr⟩ := step_eq_next.1 h
  obtain ⟨u, hu, rfl⟩ := runLine_eq_next.1 hr
  exact ⟨⟨hh, fetchLine_isSome.1 (by rw [hf]; rfl)⟩, u, .of_lineAction hu, rfl⟩

/-- A halted machine steps no further (rule R104). -/
theorem step_of_halted {s : State} (h : s.halted = true) : step s = .fault .halted := by
  simp [step, h]

/-- Past the last line there is nothing to step to (rule R104). -/
theorem step_of_pc_past_end {s : State} (hh : s.halted = false) (hpc : lineCount s.prog ≤ s.pc) :
    step s = .fault .endOfProgram := by
  have hf : fetchLine s = none := by simpa [fetchLine] using hpc
  simp [step, hh, hf]

/-- A run is over exactly when no step is enabled (rule R104). -/
theorem State.runOver_iff (s : State) : s.runOver = true ↔ ¬ s.Enabled := by
  simp only [State.runOver, State.Enabled, Bool.or_eq_true, decide_eq_true_eq, not_and, not_lt]
  cases s.halted <;> simp

/-! ### Lines of texts and of the log -/

/-- Cutting at a line feed: the text before it is the first line. -/
theorem splitLines_append_lf {l : Text} (h : 0x0A#8 ∉ l) (t : Text) :
    splitLines (l ++ 0x0A#8 :: t) = l :: splitLines t := by
  induction l with
  | nil => simp [splitLines]
  | cons b bs ih =>
    simp only [List.mem_cons, not_or] at h
    obtain ⟨hb, hbs⟩ := h
    simp [splitLines, ih hbs, Ne.symm hb]

/-- A text without a line feed is one line. -/
theorem splitLines_of_no_lf {l : Text} (h : 0x0A#8 ∉ l) : splitLines l = [l] := by
  induction l with
  | nil => rfl
  | cons b bs ih =>
    simp only [List.mem_cons, not_or] at h
    obtain ⟨hb, hbs⟩ := h
    simp [splitLines, ih hbs, Ne.symm hb]

/-- Joining lines by line feeds and cutting at line feeds gives the lines back (rules R12, R33). -/
theorem splitLines_joinLines {ls : List Text} (hne : ls ≠ []) (h : ∀ l ∈ ls, 0x0A#8 ∉ l) :
    splitLines (joinLines ls) = ls := by
  induction ls with
  | nil => exact absurd rfl hne
  | cons l ms ih =>
    have hl := h l List.mem_cons_self
    cases ms with
    | nil => exact splitLines_of_no_lf hl
    | cons m ms =>
      rw [joinLines, splitLines_append_lf hl, ih (by simp) fun k hk => h k (List.mem_cons_of_mem l hk)]

/-- A program has at least one line (rule R33). -/
theorem lineCount_pos (p : Text) : 0 < lineCount p := by
  refine List.length_pos_iff.2 ?_
  cases p with
  | nil => simp [splitLines]
  | cons b bs =>
    unfold splitLines
    split
    · simp
    · split <;> simp

/-! ### Texts of the diagnostics -/

/-- `VER`'s line for a set `V` (rule R71). -/
theorem verLine_true (old : Bool) :
    verLine old true =
      ofString "VER: Verbosity " ++ (if old then ofString "1" else ofString "0") ++ ofString " -> 1" := by
  cases old <;> rfl

/-- `HALT`'s two lines (rule R71). -/
theorem haltLine_eq (stops : Bool) :
    haltLine stops =
      if stops then ofString "HALT: execution halted" else ofString "HALT: execution continues" := by
  cases stops <;> rfl

/-! ### The obligations -/

/-- Settles O47: the line's frame keeps memory's canonical form, and an enabled step's `pc` was below the
number of lines. -/
theorem everyStepKeepsTheInvariant : Obligations.EveryStepKeepsTheInvariant := by
  rintro s t ⟨hwf, -⟩ h
  obtain ⟨⟨-, hpc⟩, u, hu, rfl⟩ := step_frame h
  refine ⟨hu.mem_wf hwf, ?_⟩
  simpa [hu.pc, hu.prog] using hpc

/-- Settles O24, by whether the value is 1. -/
theorem verSetsTheVerbosityFlag : Obligations.VerSetsTheVerbosityFlag := by
  intro x s v hv
  refine ⟨_, exec_of_instrRule_ok (verRule_eq_ok.2 ⟨x, v, rfl, hv, rfl⟩), ?_⟩
  refine ⟨by simp, fun l => by simp, by simp [SameSequencing], ?_⟩
  by_cases h1 : v = 1#8
  · simp [h1, verLine_true]
  · simp [h1, diagLines]

/-- Settles O26, by whether the value is 1. -/
theorem haltSetsTheLatchOnOne : Obligations.HaltSetsTheLatchOnOne := by
  intro x s v hv
  refine ⟨_, exec_of_instrRule_ok (haltRule_eq_ok.2 ⟨v, hv, rfl⟩), ?_⟩
  by_cases h1 : v = 1#8 <;> simp [h1, haltLine_eq, SameStorage]

/-- Settles O39, from the effects of an instruction. -/
theorem onlyWrittenOperandsChangeStorage : Obligations.OnlyWrittenOperandsChangeStorage :=
  fun _ _ _ _ h hk => (Effect.of_exec h).readLoc hk

/-- Settles O40, from the effects of an instruction. -/
theorem controlStateHasItsOwnWriters : Obligations.ControlStateHasItsOwnWriters := by
  intro i s t h
  have he := Effect.of_exec h
  exact ⟨he.verbose, he.halted, he.halted_of_halted, he.sequencing⟩

/-- Settles O41, from the effects of an instruction. -/
theorem logIsAppendOnly : Obligations.LogIsAppendOnly := fun _ _ _ h => (Effect.of_exec h).log

/-- Settles O46: an enabled step completes and keeps the line's frame; the other states are the two faults. -/
theorem stepsRunUntilTheRunIsOver : Obligations.StepsRunUntilTheRunIsOver := by
  intro s
  refine ⟨fun hs => ?_, s.runOver_iff, step_of_halted, step_of_pc_past_end⟩
  obtain ⟨t, ht⟩ := step_completes hs
  obtain ⟨-, u, ⟨hpc, hprog, hlog, -⟩, rfl⟩ := step_frame ht
  exact ⟨_, ht, by simp [hpc], hprog, hlog⟩

/-- Settles O55: cutting undoes joining. -/
theorem outputIsTheLogJoinedByLineFeeds : Obligations.OutputIsTheLogJoinedByLineFeeds := by
  intro s
  exact ⟨fun h => by simp [State.outputText, h, joinLines], splitLines_joinLines⟩

/-- Settles O18: a register is a location, and memory is not touched. -/
theorem registerWriteChangesOneRegister : Obligations.RegisterWriteChangesOneRegister := by
  intro s i v
  refine ⟨s.readLoc_writeLoc_same v (.reg i), fun j hj => ?_, fun a => rfl⟩
  exact s.readLoc_writeLoc_other v (m := .reg j) (l := .reg i) (by simpa using hj)

/-- Settles O42: a step is its line's action and the advance, and the action is read off the line's class. -/
theorem stepRunsTheDecodedInstruction : Obligations.StepRunsTheDecodedInstruction := by
  refine ⟨fun _ => rfl, fun _ => rfl, fun _ _ => rfl, fun s _ _ h => execute_of_instr h s, ?_, ?_⟩
  · intro s x hh
    exact ⟨step_of_fetchLine hh, step_of_ifBody hh, step_of_elseBody hh⟩
  · intro s x i hh hi
    rw [← execute_of_instr hi s]
    exact ⟨step_of_fetchLine hh, step_of_fetchLine hh, step_of_ifBody hh, step_of_elseBody hh⟩

/-- Settles O48: no cell is listed and `pc` is 0. -/
theorem resetMeetsTheInvariant : Obligations.ResetMeetsTheInvariant :=
  ⟨State.reset_mem_wf, Nat.zero_le _⟩

/-- Settles O53: run start writes four fields, and every program has a first line. -/
theorem runStartKeepsTheStorage : Obligations.RunStartKeepsTheStorage := by
  refine ⟨fun _ _ => rfl, fun s => ⟨?_, rfl, rfl, rfl, rfl, rfl, rfl, ?_⟩⟩
  · exact State.readLoc_congr s.start_regs s.start_mem
  · exact ⟨s.start_halted, lineCount_pos s.prog⟩

end Sys2Proof.Machine

/-! SUPPORT. The memory family: what a memory write keeps, and the order in which the phases of a two-operand
instruction raise their errors. -/

namespace Sys2Proof.Machine

/-! ### Errors of the phases of an instruction -/

/-- An instruction whose rule raises an error takes that error from the state before it (rule R95). -/
theorem exec_of_instrRule_error {i : Instr} {s : State} {e : MachineError} (h : instrRule i s = .error e) :
    exec i s = .next (takeError e s) := by
  rw [exec_eq_attempt, h, attempt_error]

/-- An operand without a value names no location, for the same reason (rules R47, R48). -/
theorem loc_of_resolve_error {x : Operand} {s : State} {e : MachineError} (h : resolve x s = .error e) :
    loc x s = .error e := by
  cases x with
  | lit l => cases h
  | reg i => cases h
  | mem inner =>
    cases hi : resolve inner s with
    | ok a => simp [resolve, hi] at h
    | error e' => simpa [resolve, loc, hi] using h
  | badReg t => simpa [resolve, loc] using h
  | bad t => simpa [resolve, loc] using h

/-- A two-operand instruction that cuts its form, locates its destination and goes on with `k` takes the error
of the first phase that raises one, when `k` itself begins with its source (rules R32, R38, R97). -/
theorem exec_pair_errors {c : PairForm → Instr}
    {k : Operand → Operand → State → Location → Except MachineError State}
    (hc : ∀ f s, instrRule (c f) s = withPair f fun d x => withLoc d s (k d x s))
    (hk : ∀ d x s l e, resolve x s = .error e → k d x s l = .error e) (s : State) :
    (∀ rest, exec (c (.noSep rest)) s = .next (takeError (.malformedOperand rest) s)) ∧
    (∀ d x e, loc d s = .error e → exec (c (.pair d x)) s = .next (takeError e s)) ∧
    (∀ d x l e, loc d s = .ok l → resolve x s = .error e →
      exec (c (.pair d x)) s = .next (takeError e s)) := by
  refine ⟨fun rest => ?_, fun d x e hd => ?_, fun d x l e hd hx => ?_⟩ <;>
    apply exec_of_instrRule_error <;> rw [hc]
  · exact withPair_noSep ..
  · rw [withPair_pair, withLoc_of_error hd]
  · rw [withPair_pair, withLoc_of_ok hd, hk d x s l e hx]

/-! ### The statements of the memory family -/

/-- Settles O17: a memory cell is a location, and a memory write touches no other field. -/
theorem memoryWriteChangesOneCell : Obligations.MemoryWriteChangesOneCell := by
  intro s a v
  refine ⟨s.readLoc_writeLoc_same v (.mem a), fun b hb => ?_, fun i => rfl, rfl, rfl, rfl, rfl, rfl, rfl⟩
  exact s.readLoc_writeLoc_other v (m := .mem b) (l := .mem a) (by simpa using hb)

/-- Settles O33: each rule cuts, locates its destination and then takes its source, which `QMOV` locates and
the others resolve. -/
theorem twoOperandErrorsComeInOrder : Obligations.TwoOperandErrorsComeInOrder := by
  intro c hc
  simp only [List.mem_cons, List.not_mem_nil, or_false] at hc
  rcases hc with rfl | rfl | rfl | rfl | rfl | rfl | rfl
  case inr.inr.inl => -- `QMOV`
    exact exec_pair_errors (fun _ _ => rfl) fun _ _ _ _ _ hx => withLoc_of_error (loc_of_resolve_error hx) _
  all_goals exact exec_pair_errors (fun _ _ => rfl) fun _ _ _ _ _ hx => withValue_of_error hx _

end Sys2Proof.Machine

/-! SUPPORT. The encoding family: how the text functions of decoding act on a text put together from parts, the
operand forms as shapes of texts, and the statements about decoding and encoding that follow from them. -/

namespace Sys2Proof

/-! ### Whitespace -/

/-- The whitespace set of rule R34, byte by byte. -/
theorem isWs_iff (b : Byte) : isWs b = true ↔ b ∈ [0x20#8, 0x09#8, 0x0D#8, 0x0B#8, 0x0C#8] := by
  unfold isWs Ws.ofByte?
  split_ifs <;> simp_all

@[simp] theorem Ws.ofByte?_byte (w : Ws) : Ws.ofByte? w.byte = some w := by cases w <;> rfl

@[simp] theorem isWs_byte (w : Ws) : isWs w.byte = true := by simp [isWs]

theorem isWs_of_mem_map_byte {ws : List Ws} {b : Byte} (h : b ∈ ws.map Ws.byte) : isWs b = true := by
  obtain ⟨w, -, rfl⟩ := List.mem_map.1 h
  exact isWs_byte w

theorem Ws.byte_of_ofByte? {b : Byte} {w : Ws} (h : Ws.ofByte? b = some w) : w.byte = b := by
  unfold Ws.ofByte? at h
  split_ifs at h <;> cases h <;> simp_all [Ws.byte]

@[simp] theorem wsOf_map_byte (ws : List Ws) : wsOf (ws.map Ws.byte) = ws := by
  induction ws with
  | nil => rfl
  | cons w ws ih => rw [List.map_cons, wsOf, List.filterMap_cons_some w.ofByte?_byte, ← wsOf, ih]

/-- A text of whitespace is kept by reading its whitespace characters. -/
theorem map_byte_wsOf {t : Text} (h : ∀ b ∈ t, isWs b = true) : (wsOf t).map Ws.byte = t := by
  induction t with
  | nil => rfl
  | cons b bs ih =>
    obtain ⟨hb, hbs⟩ := List.forall_mem_cons.1 h
    obtain ⟨w, hw⟩ := Option.isSome_iff_exists.1 hb
    have hcons : wsOf (b :: bs) = w :: wsOf bs := by simp [wsOf, hw]
    rw [hcons, List.map_cons, ih hbs, Ws.byte_of_ofByte? hw]

/-! ### Trimming (rule R36) -/

theorem head?_of_prefix {s t : Text} {b : Byte} (h : s <+: t) (hb : s.head? = some b) : t.head? = some b := by
  obtain ⟨u, rfl⟩ := h
  rw [List.head?_append, hb, Option.some_or]

theorem getLast?_of_suffix {s t : Text} {b : Byte} (h : s <:+ t) (hb : s.getLast? = some b) :
    t.getLast? = some b := by
  obtain ⟨u, rfl⟩ := h
  rw [List.getLast?_append, hb, Option.some_or]

theorem trimRight_prefix (t : Text) : trimRight t <+: t := List.rdropWhile_prefix _ _

theorem trimLeft_append_of_ws {pre : Text} (h : ∀ b ∈ pre, isWs b = true) (t : Text) :
    trimLeft (pre ++ t) = trimLeft t :=
  List.dropWhile_append_of_pos h

theorem trimRight_append_of_ws {post : Text} (h : ∀ b ∈ post, isWs b = true) (t : Text) :
    trimRight (t ++ post) = trimRight t := by
  rw [trimRight, List.reverse_append, List.dropWhile_append_of_pos (by simpa using h), trimRight]

/-- Nothing is removed on the left of a text that does not begin with whitespace. -/
theorem trimLeft_eq_self {t : Text} (h : ∀ b, t.head? = some b → isWs b = false) : trimLeft t = t := by
  cases t with
  | nil => rfl
  | cons b bs => exact List.dropWhile_cons_of_neg (by simp [h b rfl])

/-- Nothing is removed on the right of a text that does not end with whitespace. -/
theorem trimRight_eq_self {t : Text} (h : ∀ b, t.getLast? = some b → isWs b = false) : trimRight t = t := by
  have hr : trimLeft t.reverse = t.reverse := trimLeft_eq_self (by simpa using h)
  rw [trimRight, ← trimLeft, hr, List.reverse_reverse]

/-- Trimming stops on both sides at a character that is no whitespace. -/
theorem trim_append_cons {c : Byte} (hc : isWs c = false) (a b : Text) :
    trim (a ++ c :: b) = trimLeft a ++ c :: trimRight b := by
  have hl : trimLeft (a ++ c :: b) = trimLeft a ++ c :: b := by
    unfold trimLeft
    rw [List.dropWhile_append]
    split
    · simp_all
    · rfl
  have hr (x : Text) : trimRight (x ++ c :: b) = x ++ c :: trimRight b := by
    simp only [trimRight, List.reverse_append, List.reverse_cons, List.append_assoc, List.dropWhile_append]
    split <;> simp_all
  rw [trim, hl, hr]

@[simp] theorem trim_trimLeft (t : Text) : trim (trimLeft t) = trim t := by
  simp only [trim, trimLeft, List.dropWhile_idempotent]

theorem trim_ws_append {pre : Text} (h : ∀ b ∈ pre, isWs b = true) (t : Text) : trim (pre ++ t) = trim t := by
  rw [trim, trimLeft_append_of_ws h, trim]

theorem trim_append_ws {post : Text} (h : ∀ b ∈ post, isWs b = true) (t : Text) :
    trim (t ++ post) = trim t := by
  unfold trim trimLeft
  rw [List.dropWhile_append]
  split
  · rename_i ht
    rw [List.isEmpty_iff.1 ht, List.dropWhile_eq_nil_iff.2 h]
  · exact trimRight_append_of_ws h _

/-- What `trimRight` removes is whitespace at the end. -/
theorem trimRight_append_rtakeWhile (t : Text) : trimRight t ++ t.rtakeWhile isWs = t :=
  List.rdropWhile_append_rtakeWhile

@[simp] theorem trim_trimRight (t : Text) : trim (trimRight t) = trim t := by
  conv_rhs => rw [← trimRight_append_rtakeWhile t, trim_append_ws fun _ => List.mem_rtakeWhile_imp]

@[simp] theorem trim_trim (t : Text) : trim (trim t) = trim t := by
  conv_lhs => rw [trim.eq_def t, trim_trimRight, trim_trimLeft]

/-- A text is whitespace, its trimmed text, whitespace. -/
theorem takeWhile_append_trim_append_rtakeWhile (t : Text) :
    t.takeWhile isWs ++ trim t ++ (trimLeft t).rtakeWhile isWs = t := by
  rw [List.append_assoc, trim, trimRight_append_rtakeWhile, trimLeft, List.takeWhile_append_dropWhile]

theorem mem_of_mem_trim {t : Text} {b : Byte} (h : b ∈ trim t) : b ∈ t := by
  rw [← takeWhile_append_trim_append_rtakeWhile t]
  simp [h]

theorem isWs_of_head?_trimLeft {t : Text} {b : Byte} (h : (trimLeft t).head? = some b) : isWs b = false := by
  have := List.head?_dropWhile_not isWs t
  rw [← trimLeft, h] at this
  exact this

/-- A trimmed text does not begin with whitespace. -/
theorem isWs_of_head?_trim {t : Text} {b : Byte} (h : (trim t).head? = some b) : isWs b = false :=
  isWs_of_head?_trimLeft (head?_of_prefix (trimRight_prefix (trimLeft t)) h)

/-- A trimmed text does not end with whitespace. -/
theorem isWs_of_getLast?_trim {t : Text} {b : Byte} (h : (trim t).getLast? = some b) : isWs b = false := by
  rw [trim, trimRight, List.getLast?_reverse] at h
  exact isWs_of_head?_trimLeft h

/-- A text without whitespace is trimmed. -/
theorem trim_eq_self_of_no_ws {t : Text} (h : ∀ b ∈ t, isWs b = false) : trim t = t := by
  rw [trim, trimLeft_eq_self fun b hb => h b (List.mem_of_head? hb),
    trimRight_eq_self fun b hb => h b (List.mem_of_getLast? hb)]

/-! ### Token 0 (rule R37) -/

/-- A text without whitespace, followed by nothing or by whitespace, is token 0. -/
theorem token0_append {tok u : Text} (htok : ∀ b ∈ tok, isWs b = false)
    (hu : ∀ b, u.head? = some b → isWs b = true) : token0 (tok ++ u) = tok ∧ restOf (tok ++ u) = trim u := by
  have htok' : ∀ b ∈ tok, (!isWs b) = true := by simpa using htok
  rw [token0, restOf, List.takeWhile_append_of_pos htok', List.dropWhile_append_of_pos htok']
  cases u with
  | nil => simp
  | cons b bs => simp [hu b rfl]

theorem token0_append_dropWhile (t : Text) : token0 t ++ t.dropWhile (fun b => !isWs b) = t :=
  List.takeWhile_append_dropWhile

theorem isWs_of_mem_token0 {t : Text} {b : Byte} (h : b ∈ token0 t) : isWs b = false := by
  simpa using List.mem_takeWhile_imp h

/-- What follows token 0 begins with whitespace. -/
theorem isWs_of_head?_after_token0 {t : Text} {b : Byte}
    (h : (t.dropWhile fun b => !isWs b).head? = some b) : isWs b = true := by
  have := List.head?_dropWhile_not (fun b => !isWs b) t
  rw [h] at this
  simpa using this

/-! ### Comments (rule R35) -/

theorem stripComment_of_not_mem {t : Text} (h : 0x3B#8 ∉ t) : stripComment t = t :=
  List.takeWhile_eq_self_iff.2 fun b hb => by simpa using ne_of_mem_of_not_mem hb h

theorem stripComment_append {a : Text} (h : 0x3B#8 ∉ a) (b : Text) : stripComment (a ++ 0x3B#8 :: b) = a := by
  have ha : ∀ x ∈ a, (x != 0x3B#8) = true := fun x hx => by simpa using ne_of_mem_of_not_mem hx h
  rw [stripComment, List.takeWhile_append_of_pos ha]
  simp

theorem not_mem_stripComment (t : Text) : 0x3B#8 ∉ stripComment t := fun h => by
  simpa using List.mem_takeWhile_imp h

/-! ### Dispatch (rules R37, R39) -/

@[simp] theorem Opcode.ofToken?_mnemonic (o : Opcode) : Opcode.ofToken? o.mnemonic = some o := by
  cases o <;> rfl

/-- Only an opcode's own mnemonic selects it. -/
theorem Opcode.mnemonic_of_ofToken? {tok : Text} {o : Opcode} (h : Opcode.ofToken? tok = some o) :
    o.mnemonic = tok := by
  simpa using List.find?_some h

theorem Opcode.isWs_of_mem_mnemonic (o : Opcode) : ∀ b ∈ o.mnemonic, isWs b = false := by
  cases o <;> decide

theorem Opcode.semicolon_not_mem_mnemonic (o : Opcode) : 0x3B#8 ∉ o.mnemonic := by cases o <;> decide

theorem Opcode.mnemonic_ne_nil (o : Opcode) : o.mnemonic ≠ [] := by cases o <;> decide

/-- A line whose token 0 is a mnemonic is its opcode's instruction. -/
theorem decodeLine_of_token0 {t : Text} {o : Opcode} (h : token0 t = o.mnemonic) :
    decodeLine t = .instr (o.build (restOf t)) := by
  have ht : t ≠ [] := fun h0 => o.mnemonic_ne_nil (by rw [← h, h0]; rfl)
  simp [decodeLine, ht, h]

/-- A non-empty line whose token 0 is no mnemonic is an unknown instruction. -/
theorem decodeLine_unknown {t : Text} (ht : t ≠ []) (h : ∀ o : Opcode, o.mnemonic ≠ token0 t) :
    decodeLine t = .unknown (token0 t) := by
  have hnone : Opcode.ofToken? (token0 t) = none :=
    Option.eq_none_iff_forall_ne_some.2 fun o ho => h o (Opcode.mnemonic_of_ofToken? ho)
  simp [decodeLine, ht, hnone]

/-- A line that decodes to an instruction is built by an opcode from its rest. -/
theorem eq_build_of_decodeLine {t : Text} {i : Instr} (h : decodeLine t = .instr i) :
    ∃ o : Opcode, i = o.build (restOf t) := by
  unfold decodeLine at h
  split at h
  · cases h
  · split at h
    · cases h
    · exact ⟨_, (Decoded.instr.inj h).symm⟩

/-! ### The line of an instruction -/

/-- Trimming a text that begins with a word leaves the word. -/
theorem trim_word_append {a : Text} (hne : a ≠ []) (ha : ∀ b ∈ a, isWs b = false) (u : Text) :
    trim (a ++ u) = a ++ trimRight u := by
  obtain ⟨a', c, rfl⟩ := List.eq_nil_or_concat a |>.resolve_left hne
  simp only [List.concat_eq_append, List.append_assoc, List.singleton_append] at ha ⊢
  rw [trim_append_cons (ha c (by simp)),
    trimLeft_eq_self fun b hb => ha b (List.mem_append_left _ (List.mem_of_head? hb))]

/-- The encoded line decodes to what its opcode builds from the trimmed operand part, which is read up to a
semicolon. -/
theorem decodeRaw_encode {i : Instr} (h : 0x3B#8 ∉ i.restText) :
    decodeRaw (encode i) = .instr (i.opcode.build (trim i.restText)) := by
  have hws := i.opcode.isWs_of_mem_mnemonic
  have hsemi : 0x3B#8 ∉ encode i := by
    simpa [encode, h] using i.opcode.semicolon_not_mem_mnemonic
  have hline : lineText (encode i) = i.opcode.mnemonic ++ trimRight (0x20#8 :: i.restText) := by
    rw [lineText, stripComment_of_not_mem hsemi, encode, trim_word_append i.opcode.mnemonic_ne_nil hws]
  have hhead : ∀ b, (trimRight (0x20#8 :: i.restText)).head? = some b → isWs b = true := by
    intro b hb
    cases head?_of_prefix (trimRight_prefix _) hb
    rfl
  obtain ⟨htok, hrest⟩ := token0_append hws hhead
  have htrim : trim (0x20#8 :: i.restText) = trim i.restText :=
    trim_ws_append (pre := [0x20#8]) (by decide) i.restText
  rw [decodeRaw, hline, decodeLine_of_token0 htok, hrest, trim_trimRight, htrim]

/-! ### Separators (rule R38) -/

/-- A cut at a separator is the cut at its first occurrence. -/
theorem cutAt_separator_iff {c : Byte} {t a b : Text} :
    cutAt [c] t = some (a, b) ↔ c ∉ a ∧ t = a ++ c :: b := by
  constructor
  · intro h
    obtain ⟨ht, hmin⟩ := cutAt_some _ _ _ _ h
    refine ⟨fun hc => ?_, by simpa using ht⟩
    obtain ⟨x, y, rfl⟩ := List.append_of_mem hc
    have := hmin x (y ++ c :: b) (by simp [ht])
    simp at this
  · rintro ⟨hc, rfl⟩
    exact cutAt_separator hc b

theorem parsePairForm_of_cut {sep : Byte} {a : Text} (h : sep ∉ a) (b : Text) :
    parsePairForm sep (a ++ sep :: b) = .pair (parseOperand (trim a)) (parseOperand (trim b)) := by
  simp [parsePairForm, cutAt_separator h]

theorem parsePairForm_of_no_separator {sep : Byte} {a : Text} (h : sep ∉ a) :
    parsePairForm sep a = .noSep a := by
  simp [parsePairForm, cutAt_separator_none h]

theorem parseValueForm_eq (b : Text) : parseValueForm (0x3D#8 :: b) = .eq (parseOperand (trim b)) := rfl

theorem parseValueForm_noEq {a : Text} (h : a.head? ≠ some 0x3D#8) : parseValueForm a = .noEq a := by
  cases a with
  | nil => rfl
  | cons b bs => exact if_neg fun hb => h (by simp [hb])

/-! ### Digits and literals (rules R41, R42, R45) -/

theorem binDigit?_eq_some {b : Byte} {d : Fin 2} : binDigit? b = some d ↔ b = binChar d := by
  constructor
  · unfold binDigit?
    split_ifs with h0 h1 <;> rintro ⟨⟩ <;> assumption
  · rintro rfl
    revert d
    decide

theorem decDigit?_eq_some {b : Byte} {d : Fin 10} : decDigit? b = some d ↔ b = decChar d := by
  constructor
  · unfold decDigit?
    split_ifs <;> rintro ⟨⟩
    apply BitVec.eq_of_toNat_eq
    simp only [decChar, BitVec.toNat_ofNat]
    omega
  · rintro rfl
    revert d
    decide

theorem hexDigit?_eq_some {b : Byte} {d : Fin 22} : hexDigit? b = some d ↔ b = hexChar d := by
  constructor
  · unfold hexDigit?
    split_ifs <;> rintro ⟨⟩
    all_goals
      apply BitVec.eq_of_toNat_eq
      dsimp only [hexChar]
      split_ifs <;> simp only [BitVec.toNat_ofNat] <;> omega
  · rintro rfl
    revert d
    decide

/-- Reading digits is the inverse of writing them, when each digit has one character. -/
theorem digits?_eq_some {α : Type} {f : Byte → Option α} {char : α → Byte}
    (hf : ∀ {b d}, f b = some d ↔ b = char d) {t : Text} {ds : List α} :
    digits? f t = some ds ↔ t = ds.map char := by
  induction t generalizing ds with
  | nil => cases ds <;> simp [digits?]
  | cons b bs ih =>
    cases ds with
    | nil => simp only [digits?]; split <;> simp
    | cons d ds =>
      rw [List.map_cons, List.cons.injEq, ← ih, ← hf]
      cases h : f b <;> cases h' : digits? f bs <;> simp [digits?, h, h']

/-- A literal of one base: at least one digit, and nothing else. -/
def readLiteral? {α : Type} (f : Byte → Option α) (mk : α → List α → Literal) (t : Text) :
    Option Literal :=
  match digits? f t with
  | some (d :: ds) => some (mk d ds)
  | _ => none

theorem binLiteral?_eq (t : Text) : binLiteral? t = readLiteral? binDigit? .bin t := by
  unfold binLiteral? readLiteral?
  rcases digits? binDigit? t with _ | _ | _ <;> rfl

theorem hexLiteral?_eq (t : Text) : hexLiteral? t = readLiteral? hexDigit? .hex t := by
  unfold hexLiteral? readLiteral?
  rcases digits? hexDigit? t with _ | _ | _ <;> rfl

theorem decLiteral?_eq (t : Text) : decLiteral? t = readLiteral? decDigit? .dec t := by
  unfold decLiteral? readLiteral?
  rcases digits? decDigit? t with _ | _ | _ <;> rfl

section
variable {α : Type} {f : Byte → Option α} {mk : α → List α → Literal}

theorem readLiteral?_of_digits {t : Text} {d : α} {ds : List α} (h : digits? f t = some (d :: ds)) :
    readLiteral? f mk t = some (mk d ds) := by
  simp [readLiteral?, h]

theorem readLiteral?_eq_some {char : α → Byte} (hf : ∀ {b d}, f b = some d ↔ b = char d) {t : Text}
    {l : Literal} : readLiteral? f mk t = some l ↔ ∃ d ds, l = mk d ds ∧ t = (d :: ds).map char := by
  simp only [← digits?_eq_some hf]
  constructor
  · unfold readLiteral?
    split
    · rintro ⟨⟩
      exact ⟨_, _, rfl, by assumption⟩
    · rintro ⟨⟩
  · rintro ⟨d, ds, rfl, h⟩
    exact readLiteral?_of_digits h

theorem readLiteral?_eq_none {t : Text} (h : t = [] ∨ ∃ b ∈ t, f b = none) : readLiteral? f mk t = none := by
  rcases h with rfl | h
  · rfl
  · simp [readLiteral?, digits?_none h]

end

/-- A literal operand, valid or not, keeps its text when the literal does. -/
theorem operandText_literalOr {t : Text} {o : Option Literal} (h : ∀ l, o = some l → literalText l = t) :
    operandText (literalOr t o) = t := by
  cases o with
  | none => rfl
  | some l => exact h l rfl

/-! ### Registers and brackets (rules R43, R44) -/

/-- A register index is one digit character `0` to `7`. -/
theorem regIndex?_eq_some {u : Text} {i : Fin 8} :
    regIndex? u = some i ↔ u = [BitVec.ofNat 8 (0x30 + i.val)] := by
  constructor
  · unfold regIndex?
    split
    · split_ifs with h <;> rintro ⟨⟩
      refine congrArg (fun b => [b]) (BitVec.eq_of_toNat_eq ?_)
      simp only [BitVec.toNat_ofNat]
      omega
    · rintro ⟨⟩
  · rintro rfl
    revert i
    decide

/-- A bracketed text is its inner text between the brackets. -/
theorem bracketed?_eq_some {t inner : Text} :
    bracketed? t = some inner ↔ t = 0x5B#8 :: (inner ++ [0x5D#8]) := by
  constructor
  · unfold bracketed?
    split
    · split_ifs with h <;> rintro ⟨⟩
      obtain ⟨rfl, hlast⟩ := h
      rw [List.dropLast_append_getLast? _ hlast]
    · rintro ⟨⟩
  · rintro rfl
    cases inner with
    | nil => rfl
    | cons c cs =>
      rw [List.cons_append, bracketed?, ← List.cons_append, if_pos ⟨rfl, List.getLast?_concat⟩,
        List.dropLast_concat]

/-- The bracket test in the words of rule R40. -/
theorem bracketed?_isSome_iff {t : Text} :
    (2 ≤ t.length ∧ ofString "[" <+: t ∧ ofString "]" <:+ t) ↔ ∃ inner, bracketed? t = some inner := by
  simp only [bracketed?_eq_some]
  constructor
  · rintro ⟨-, ⟨u, rfl⟩, v, hv⟩
    cases v with
    | nil => cases hv
    | cons c cs =>
      replace hv : c :: (cs ++ [0x5D#8]) = 0x5B#8 :: u := hv
      rw [List.cons.injEq] at hv
      exact ⟨cs, congrArg (0x5B#8 :: ·) hv.2.symm⟩
  · rintro ⟨inner, rfl⟩
    exact ⟨by simp, ⟨_, rfl⟩, 0x5B#8 :: inner, rfl⟩

/-! ### Classification of operand texts (rule R40) -/

/-- One level of the classification, whose last test needs a bound above 0 only for a bracketed text. -/
theorem parseOperandAux_congr {n m : Nat} {t : Text} (h : ∀ inner, bracketed? t = some inner →
    ∃ n' m', n = n' + 1 ∧ m = m' + 1 ∧ parseOperandAux n' inner = parseOperandAux m' inner) :
    parseOperandAux n t = parseOperandAux m t := by
  unfold parseOperandAux
  cases hb : bracketed? t with
  | none => cases n <;> cases m <;> rfl
  | some inner =>
    obtain ⟨n', m', rfl, rfl, hinner⟩ := h inner hb
    simp only [hinner]

/-- Any bound on the bracket depth that reaches the length of the text gives the same operand. -/
theorem parseOperandAux_eq_of_le {n m : Nat} {t : Text} (hn : t.length ≤ n) (hm : t.length ≤ m) :
    parseOperandAux n t = parseOperandAux m t := by
  induction n generalizing m t with
  | zero =>
    obtain rfl : t = [] := List.length_eq_zero_iff.1 (Nat.le_zero.1 hn)
    exact parseOperandAux_congr fun inner h => by simp [bracketed?] at h
  | succ n ih =>
    refine parseOperandAux_congr fun inner h => ?_
    have hlen : t.length = inner.length + 2 := by simp [bracketed?_eq_some.1 h]
    exact ⟨n, m - 1, rfl, by omega, ih (by omega) (by omega)⟩

/-! ### The operand forms -/

/-- Settles O6: `parseOperand` makes the five tests, and the bound it starts with reaches every bracket depth. -/
theorem operandTextsAreClassifiedInOrder : Obligations.OperandTextsAreClassifiedInOrder := by
  intro t
  have hR : t.head? = some 0x52#8 ↔ ofString "R" <+: t := by
    cases t <;> simp [ofString, ascii, charByte, eq_comm]
  rw [parseOperand]
  unfold parseOperandAux
  simp only [List.isPrefixOf_iff_prefix, List.drop_one, hR]
  refine if_congr Iff.rfl rfl (if_congr Iff.rfl rfl (if_congr Iff.rfl rfl ?_))
  cases hb : bracketed? t with
  | none =>
    rw [if_neg (by simp [bracketed?_isSome_iff, hb])]
    cases t.length <;> rfl
  | some inner =>
    rw [if_pos (bracketed?_isSome_iff.2 ⟨inner, hb⟩)]
    obtain rfl := bracketed?_eq_some.1 hb
    rw [List.tail_cons, List.dropLast_concat, parseOperand, List.length_cons]
    exact congrArg Operand.mem (parseOperandAux_eq_of_le (by simp) le_rfl)

theorem parseOperand_bin (u : Text) :
    parseOperand (ofString "0b" ++ u) = literalOr (ofString "0b" ++ u) (binLiteral? u) := by
  rw [operandTextsAreClassifiedInOrder, if_pos (List.prefix_append _ _)]
  rfl

theorem parseOperand_hex (u : Text) :
    parseOperand (ofString "0x" ++ u) = literalOr (ofString "0x" ++ u) (hexLiteral? u) := by
  rw [operandTextsAreClassifiedInOrder, if_neg (by simp [ofString, ascii, charByte]),
    if_pos (List.prefix_append _ _)]
  rfl

/-- A text that begins with `R` is a register reference, valid or not. -/
theorem parseOperand_R (u : Text) :
    parseOperand (0x52#8 :: u) = (regIndex? u).elim (.badReg (0x52#8 :: u)) .reg := by
  rw [operandTextsAreClassifiedInOrder, if_neg (by simp [ofString, ascii, charByte]),
    if_neg (by simp [ofString, ascii, charByte]), if_pos ⟨u, rfl⟩, List.drop_one,
    List.tail_cons]
  cases regIndex? u <;> rfl

theorem parseOperand_brackets (inner : Text) :
    parseOperand (0x5B#8 :: (inner ++ [0x5D#8])) = .mem (parseOperand inner) := by
  rw [operandTextsAreClassifiedInOrder, if_neg (by simp [ofString, ascii, charByte]),
    if_neg (by simp [ofString, ascii, charByte]), if_neg (by simp [ofString, ascii, charByte]),
    if_pos (bracketed?_isSome_iff.2 ⟨inner, bracketed?_eq_some.2 rfl⟩)]
  simp

theorem parseOperand_other {t : Text} (h0b : ¬ ofString "0b" <+: t) (h0x : ¬ ofString "0x" <+: t)
    (hR : ¬ ofString "R" <+: t) (hbr : ¬ (2 ≤ t.length ∧ ofString "[" <+: t ∧ ofString "]" <:+ t)) :
    parseOperand t = literalOr t (decLiteral? t) := by
  rw [operandTextsAreClassifiedInOrder, if_neg h0b, if_neg h0x, if_neg hR, if_neg hbr]

/-- A text of decimal digits has none of the other forms. -/
theorem parseOperand_decimal {t : Text} (h : ∀ b ∈ t, b ∈ ofString "0123456789") :
    parseOperand t = literalOr t (decLiteral? t) := by
  have hnot {p : Text} {c : Byte} (hc : c ∈ p) (hd : c ∉ ofString "0123456789") : ¬ p <+: t :=
    fun hp => hd (h c (hp.subset hc))
  exact parseOperand_other (hnot (c := 0x62#8) (by decide) (by decide))
    (hnot (c := 0x78#8) (by decide) (by decide)) (hnot (c := 0x52#8) (by decide) (by decide))
    fun hbr => hnot (c := 0x5B#8) (by decide) (by decide) hbr.2.1

/-! ### Texts of operands -/

/-- Settles O4, by the five forms, the inner text of a memory reference being shorter. -/
theorem operandParsingKeepsTheText : Obligations.OperandParsingKeepsTheText := by
  intro t
  induction hn : t.length using Nat.strong_induction_on generalizing t with
  | _ n ih =>
    rw [operandTextsAreClassifiedInOrder]
    split_ifs with h0b h0x hR hbr
    · obtain ⟨u, rfl⟩ := h0b
      refine operandText_literalOr fun l hl => ?_
      rw [binLiteral?_eq, readLiteral?_eq_some binDigit?_eq_some] at hl
      obtain ⟨d, ds, rfl, hu⟩ := hl
      exact congrArg (ofString "0b" ++ ·) hu.symm
    · obtain ⟨u, rfl⟩ := h0x
      refine operandText_literalOr fun l hl => ?_
      rw [hexLiteral?_eq, readLiteral?_eq_some hexDigit?_eq_some] at hl
      obtain ⟨d, ds, rfl, hu⟩ := hl
      exact congrArg (ofString "0x" ++ ·) hu.symm
    · obtain ⟨u, rfl⟩ := hR
      cases hu : regIndex? ((ofString "R" ++ u).drop 1) with
      | none => rfl
      | some i => exact congrArg (0x52#8 :: ·) (regIndex?_eq_some.1 hu).symm
    · obtain ⟨inner, hinner⟩ := bracketed?_isSome_iff.1 hbr
      obtain rfl := bracketed?_eq_some.1 hinner
      simp only [List.length_append, List.length_cons, List.length_nil] at hn
      have hin := ih inner.length (by omega) inner rfl
      simpa [operandText] using hin
    · refine operandText_literalOr fun l hl => ?_
      rw [decLiteral?_eq, readLiteral?_eq_some decDigit?_eq_some] at hl
      obtain ⟨d, ds, rfl, ht⟩ := hl
      exact ht.symm

/-- The text of an operand that was read is the text it was read from. -/
@[simp] theorem operandText_parseOperand (t : Text) : operandText (parseOperand t) = t :=
  operandParsingKeepsTheText t

/-- A well-formed operand is read back from its text (rules R40 to R45). -/
theorem parseOperand_operandText {x : Operand} (h : x.wf = true) : parseOperand (operandText x) = x := by
  induction x with
  | lit l =>
    cases l with
    | bin d ds =>
      refine (parseOperand_bin _).trans ?_
      rw [binLiteral?_eq, (readLiteral?_eq_some binDigit?_eq_some).2 ⟨d, ds, rfl, rfl⟩]
      rfl
    | hex d ds =>
      refine (parseOperand_hex _).trans ?_
      rw [hexLiteral?_eq, (readLiteral?_eq_some hexDigit?_eq_some).2 ⟨d, ds, rfl, rfl⟩]
      rfl
    | dec d ds =>
      have hchar : ∀ e, decChar e ∈ ofString "0123456789" := by decide
      refine (parseOperand_decimal fun b hb => ?_).trans ?_
      · obtain ⟨e, -, rfl⟩ := List.mem_map.1 hb
        exact hchar e
      · rw [operandText, literalText, decLiteral?_eq,
          (readLiteral?_eq_some decDigit?_eq_some).2 ⟨d, ds, rfl, rfl⟩]
        rfl
  | reg i => exact (parseOperand_R _).trans (by rw [regIndex?_eq_some.2 rfl]; rfl)
  | mem inner ih => rw [operandText, parseOperand_brackets, ih h]
  | badReg t => cases h
  | bad t => cases h

/-- The characters of well-formed operands: no whitespace, separator, semicolon or operator among them. -/
def operandChars : Text := ofString "0123456789abcdefABCDEFxR[]"

theorem mem_operandChars {x : Operand} (h : x.wf = true) : ∀ b ∈ operandText x, b ∈ operandChars := by
  have hbin : ∀ d, binChar d ∈ operandChars := by decide
  have hhex : ∀ d, hexChar d ∈ operandChars := by decide
  have hdec : ∀ d, decChar d ∈ operandChars := by decide
  have hreg : ∀ i : Fin 8, BitVec.ofNat 8 (0x30 + i.val) ∈ operandChars := by decide
  have hmap {α : Type} {char : α → Byte} (hc : ∀ d, char d ∈ operandChars) (ds : List α) :
      ∀ b ∈ ds.map char, b ∈ operandChars := by simpa using fun d _ => hc d
  induction x with
  | lit l =>
    cases l with
    | bin d ds => exact List.forall_mem_append.2 ⟨by decide, hmap hbin _⟩
    | hex d ds => exact List.forall_mem_append.2 ⟨by decide, hmap hhex _⟩
    | dec d ds => exact hmap hdec _
  | reg i => exact List.forall_mem_cons.2 ⟨by decide, List.forall_mem_singleton.2 (hreg i)⟩
  | mem inner ih =>
    exact List.forall_mem_cons.2 ⟨by decide, List.forall_mem_append.2 ⟨ih h, by decide⟩⟩
  | badReg t => cases h
  | bad t => cases h

theorem operandText_ne_nil {x : Operand} (h : x.wf = true) : operandText x ≠ [] := by
  rintro h0
  have hx := parseOperand_operandText h
  rw [h0] at hx
  subst hx
  cases h

/-- A character that well-formed operands do not have is not in a well-formed operand's text. -/
theorem not_mem_operandText {x : Operand} {c : Byte} (h : x.wf = true) (hc : c ∉ operandChars) :
    c ∉ operandText x :=
  fun hx => hc (mem_operandChars h c hx)

theorem isWs_of_mem_operandText {x : Operand} (h : x.wf = true) : ∀ b ∈ operandText x, isWs b = false := by
  have hws : ∀ b ∈ operandChars, isWs b = false := by decide
  exact fun b hb => hws b (mem_operandChars h b hb)

/-! ### Conditions (rule R73) -/

/-- The characters of the comparison operators. -/
def isOpChar (b : Byte) : Bool := b ∈ ofString "=!<>"

/-- A comparison operator is a character that is no whitespace, and then at most one more. -/
theorem CmpOp.text_eq (op : CmpOp) : ∃ c cs, op.text = c :: cs ∧ isWs c = false ∧ isOpChar c = true ∧
    (∀ b ∈ cs, isWs b = false ∧ isOpChar b = true) := by
  cases op
  all_goals exact ⟨_, _, rfl, by decide, by decide, by decide⟩

/-- Where a list of operators gives a cut, the text is before, operator, after. -/
theorem cutAtFirst_some {t l r : Text} {op : CmpOp} {ops : List CmpOp}
    (h : cutAtFirst t ops = some (l, op, r)) : t = l ++ op.text ++ r := by
  induction ops with
  | nil => cases h
  | cons o ops ih =>
    unfold cutAtFirst at h
    split at h
    · rename_i hc
      cases h
      exact (cutAt_some _ _ _ _ hc).1
    · exact ih h

/-- A pattern whose first character does not occur before it is cut there. -/
theorem cutAt_of_head_not_mem {c : Byte} {cs x : Text} (h : c ∉ x) (y : Text) :
    cutAt (c :: cs) (x ++ (c :: cs) ++ y) = some (x, y) := by
  induction x with
  | nil => simp [cutAt]
  | cons b bs ih =>
    simp only [List.mem_cons, not_or] at h
    have hcut := ih h.2
    simp only [List.append_assoc, List.cons_append] at hcut ⊢
    simp [cutAt, h.1, hcut]

/-- An operator between texts without operator characters is found in its place: an operator tried before it
occurs in no such text, because it is no part of this one. -/
theorem cutAtFirst_of_operator {x y : Text} (hx : ∀ b ∈ x, isOpChar b = false)
    (hy : ∀ b ∈ y, isOpChar b = false) (op : CmpOp) :
    cutAtFirst (x ++ op.text ++ y) CmpOp.searchOrder = some (x, op, y) := by
  have hfilter : (x ++ op.text ++ y).filter isOpChar = op.text := by
    have hop : op.text.filter isOpChar = op.text := by cases op <;> decide
    have hx' : x.filter isOpChar = [] := List.filter_eq_nil_iff.2 (by simpa using hx)
    have hy' : y.filter isOpChar = [] := List.filter_eq_nil_iff.2 (by simpa using hy)
    rw [List.filter_append, List.filter_append, hx', hop, hy', List.nil_append, List.append_nil]
  have hother {o : CmpOp} (ho : ¬ o.text <:+: op.text) : cutAt o.text (x ++ op.text ++ y) = none := by
    refine Option.eq_none_iff_forall_ne_some.2 fun ⟨l, r⟩ hc => ho ?_
    have hin : o.text <:+: x ++ op.text ++ y := ⟨l, r, (cutAt_some _ _ _ _ hc).1.symm⟩
    have := hin.filter isOpChar
    rw [hfilter] at this
    cases o <;> exact this
  have hself : cutAt op.text (x ++ op.text ++ y) = some (x, y) := by
    obtain ⟨c, cs, hop, -, hc, -⟩ := op.text_eq
    rw [hop]
    exact cutAt_of_head_not_mem (fun hcx => by simp [hx c hcx] at hc) y
  have hskip {o : CmpOp} (ho : ¬ o.text <:+: op.text) (ops : List CmpOp) :
      cutAtFirst (x ++ op.text ++ y) (o :: ops) = cutAtFirst (x ++ op.text ++ y) ops := by
    rw [cutAtFirst, hother ho]
  have hfound (ops : List CmpOp) : cutAtFirst (x ++ op.text ++ y) (op :: ops) = some (x, op, y) := by
    rw [cutAtFirst, hself]
  unfold CmpOp.searchOrder
  cases op with
  | eq => exact hfound _
  | ne => rw [hskip (by decide), hfound]
  | ge => rw [hskip (by decide), hskip (by decide), hfound]
  | le => rw [hskip (by decide), hskip (by decide), hskip (by decide), hfound]
  | gt => rw [hskip (by decide), hskip (by decide), hskip (by decide), hskip (by decide), hfound]
  | lt =>
    rw [hskip (by decide), hskip (by decide), hskip (by decide), hskip (by decide), hskip (by decide), hfound]

/-- Where a condition text is cut, its form keeps the operands and the whitespace around the operator. -/
theorem parseCondForm_of_cut {c l r : Text} {op : CmpOp}
    (h : cutAtFirst c CmpOp.searchOrder = some (l, op, r)) :
    parseCondForm c = .cmp (parseOperand (trim l)) (wsOf (l.rtakeWhile isWs)) op (wsOf (r.takeWhile isWs))
      (parseOperand (trim r)) := by
  rw [parseCondForm, h]
  rfl

theorem parseCondForm_of_no_cut {c : Text} (h : cutAtFirst c CmpOp.searchOrder = none) :
    parseCondForm c = .noOp c := by
  rw [parseCondForm, h]

/-- Settles O5: the text before the operator keeps its left edge and the text after it its right edge, because
the whole text is trimmed. -/
theorem conditionParsingKeepsTheText : Obligations.ConditionParsingKeepsTheText := by
  intro c hc
  cases hcut : cutAtFirst c CmpOp.searchOrder with
  | none => rw [parseCondForm_of_no_cut hcut, CondForm.text]
  | some p =>
    obtain ⟨l, op, r⟩ := p
    have ht := cutAtFirst_some hcut
    have hl : trimLeft l = l := trimLeft_eq_self fun b hb =>
      isWs_of_head?_trim (t := c) (hc.symm ▸ head?_of_prefix ⟨op.text ++ r, by simp [ht]⟩ hb)
    have hr : trimRight (trimLeft r) = trimLeft r := trimRight_eq_self fun b hb =>
      isWs_of_getLast?_trim (t := c)
        (hc.symm ▸ getLast?_of_suffix ((List.dropWhile_suffix _).trans ⟨l ++ op.text, ht.symm⟩) hb)
    have hl' : trim l ++ l.rtakeWhile isWs = l := by rw [trim, hl, trimRight_append_rtakeWhile]
    have hr' : r.takeWhile isWs ++ trim r = r := by
      rw [trim, hr, trimLeft, List.takeWhile_append_dropWhile]
    rw [parseCondForm_of_cut hcut, CondForm.text, operandText_parseOperand, operandText_parseOperand,
      map_byte_wsOf fun _ => List.mem_rtakeWhile_imp, map_byte_wsOf fun _ => List.mem_takeWhile_imp, hl',
      List.append_assoc, hr', ht]

/-! ### Reading texts back -/

/-- A text is read back: trimmed, it is read as the value, and no semicolon in it begins a comment. -/
structure ReadBack {α : Type} (read : Text → α) (text : Text) (a : α) : Prop where
  read_trim : read (trim text) = a
  no_comment : 0x3B#8 ∉ text

theorem ReadBack.map {α β : Type} {read : Text → α} {text : Text} {a : α} (h : ReadBack read text a)
    (c : α → β) : ReadBack (fun t => c (read t)) text (c a) :=
  ⟨congrArg c h.read_trim, h.no_comment⟩

/-- A trimmed text without a semicolon is read back as what it is read as. -/
theorem ReadBack.of_trimmed {α : Type} (read : Text → α) {t : Text} (ht : trim t = t) (hc : 0x3B#8 ∉ t) :
    ReadBack read t (read t) :=
  ⟨by rw [ht], hc⟩

/-- An instruction whose operand part is read back by its opcode's format is decoded from its line. -/
theorem decodeRaw_encode_of_readBack {i : Instr}
    (h : ReadBack (fun rest => i.opcode.build rest) i.restText i) : decodeRaw (encode i) = .instr i := by
  rw [decodeRaw_encode h.no_comment, h.read_trim]

/-! Operands -/

theorem ReadBack.operand_of_wf {x : Operand} (h : x.wf = true) : ReadBack parseOperand (operandText x) x where
  read_trim := by rw [trim_eq_self_of_no_ws (isWs_of_mem_operandText h), parseOperand_operandText h]
  no_comment := not_mem_operandText h (by decide)

theorem ReadBack.parsed_operand {t : Text} (ht : trim t = t) (hc : 0x3B#8 ∉ t) :
    ReadBack parseOperand (operandText (parseOperand t)) (parseOperand t) := by
  rw [operandText_parseOperand]
  exact .of_trimmed _ ht hc

/-- The operand of a trimmed part of a text. -/
theorem ReadBack.parsed_part {t u : Text} (hu : u ⊆ t) (hc : 0x3B#8 ∉ t) :
    ReadBack parseOperand (operandText (parseOperand (trim u))) (parseOperand (trim u)) :=
  .parsed_operand (trim_trim u) fun h => hc (hu (mem_of_mem_trim h))

/-! Format `V` -/

theorem ReadBack.valueForm_eq {v : Operand} (h : ReadBack parseOperand (operandText v) v) :
    ReadBack parseValueForm (ValueForm.eq v).text (.eq v) where
  read_trim := by
    have htrim : trim (ValueForm.eq v).text = 0x3D#8 :: trimRight (0x20#8 :: operandText v) :=
      trim_append_cons (by decide) [] _
    have hws : trim (0x20#8 :: operandText v) = trim (operandText v) :=
      trim_ws_append (pre := [0x20#8]) (by decide) _
    rw [htrim, parseValueForm_eq, trim_trimRight, hws, h.read_trim]
  no_comment := by simpa [ValueForm.text, ascii, charByte] using h.no_comment

theorem ReadBack.valueForm_of_wf {f : ValueForm} (h : f.wf = true) : ReadBack parseValueForm f.text f := by
  cases f with
  | eq v => exact .valueForm_eq (.operand_of_wf h)
  | noEq rest => cases h

theorem ReadBack.parsed_valueForm {t : Text} (ht : trim t = t) (hc : 0x3B#8 ∉ t) :
    ReadBack parseValueForm (parseValueForm t).text (parseValueForm t) := by
  by_cases hhead : t.head? = some 0x3D#8
  · obtain ⟨b, rfl⟩ := List.head?_eq_some_iff.1 hhead
    exact .valueForm_eq (.parsed_part (List.subset_cons_self _ _) hc)
  · have htext : (parseValueForm t).text = t := by rw [parseValueForm_noEq hhead, ValueForm.text]
    rw [htext]
    exact .of_trimmed _ ht hc

/-! Formats `I` and `D2` -/

/-- The text an encoded line separates two operands with: a separator within whitespace. -/
structure Separates (sep : Byte) (text : Text) : Prop where
  within_ws : ∃ pre post, text = pre ++ sep :: post ∧ (∀ b ∈ pre, isWs b = true) ∧ ∀ b ∈ post, isWs b = true
  not_ws : isWs sep = false
  not_operandChar : sep ∉ operandChars
  no_comment : 0x3B#8 ∉ text

theorem comma_separates : Separates 0x2C#8 (ascii [',', ' ']) where
  within_ws := ⟨[], [0x20#8], rfl, by decide, by decide⟩
  not_ws := by decide
  not_operandChar := by decide
  no_comment := by decide

theorem equals_separates : Separates 0x3D#8 (ascii [' ', '=', ' ']) where
  within_ws := ⟨[0x20#8], [0x20#8], rfl, by decide, by decide⟩
  not_ws := by decide
  not_operandChar := by decide
  no_comment := by decide

section
variable {sep : Byte} {sepText : Text} (hs : Separates sep sepText)
include hs

theorem ReadBack.pairForm_pair {d x : Operand} (hd : ReadBack parseOperand (operandText d) d)
    (hx : ReadBack parseOperand (operandText x) x) (hsep : sep ∉ operandText d) :
    ReadBack (parsePairForm sep) ((PairForm.pair d x).text sepText) (.pair d x) where
  read_trim := by
    obtain ⟨pre, post, rfl, hpre, hpost⟩ := hs.within_ws
    have hleft : sep ∉ trimLeft (operandText d ++ pre) := fun h => by
      rcases List.mem_append.1 ((List.dropWhile_suffix _).subset h) with h | h
      · exact hsep h
      · exact absurd (hpre sep h) (by simp [hs.not_ws])
    have htrim : trim ((PairForm.pair d x).text (pre ++ sep :: post)) =
        trimLeft (operandText d ++ pre) ++ sep :: trimRight (post ++ operandText x) := by
      rw [← trim_append_cons hs.not_ws]
      simp [PairForm.text]
    rw [htrim, parsePairForm_of_cut hleft, trim_trimLeft, trim_trimRight, trim_append_ws hpre,
      trim_ws_append hpost, hd.read_trim, hx.read_trim]
  no_comment := by simp [PairForm.text, hd.no_comment, hx.no_comment, hs.no_comment]

theorem ReadBack.pairForm_of_wf {f : PairForm} (h : f.wf = true) :
    ReadBack (parsePairForm sep) (f.text sepText) f := by
  cases f with
  | noSep rest => cases h
  | pair d x =>
    simp only [PairForm.wf, Operand.wfDest, Bool.and_eq_true] at h
    obtain ⟨⟨hd, -⟩, hx⟩ := h
    have hsep := not_mem_operandText hd hs.not_operandChar
    exact .pairForm_pair hs (.operand_of_wf hd) (.operand_of_wf hx) hsep

theorem ReadBack.parsed_pairForm {t : Text} (ht : trim t = t) (hc : 0x3B#8 ∉ t) :
    ReadBack (parsePairForm sep) ((parsePairForm sep t).text sepText) (parsePairForm sep t) := by
  cases hcut : cutAt [sep] t with
  | none =>
    have htext : (parsePairForm sep t).text sepText = t := by rw [parsePairForm, hcut, PairForm.text]
    rw [htext]
    exact .of_trimmed _ ht hc
  | some p =>
    obtain ⟨a, b⟩ := p
    obtain ⟨ha, rfl⟩ := cutAt_separator_iff.1 hcut
    rw [parsePairForm_of_cut ha]
    refine .pairForm_pair hs (.parsed_part (by simp) hc) (.parsed_part (by simp) hc) ?_
    rw [operandText_parseOperand]
    exact fun h => ha (mem_of_mem_trim h)

end

theorem PairForm.wf_of_wfLocs {f : PairForm} (h : f.wfLocs = true) : f.wf = true := by
  cases f with
  | noSep rest => cases h
  | pair d x =>
    simp only [PairForm.wfLocs, Operand.wfDest, Bool.and_eq_true] at h
    simp [PairForm.wf, Operand.wfDest, h]

/-! Format `C` -/

theorem takeWhile_ws_append {ws u : Text} (hws : ∀ b ∈ ws, isWs b = true) (hu : ∀ b ∈ u, isWs b = false) :
    (ws ++ u).takeWhile isWs = ws := by
  rw [List.takeWhile_append_of_pos hws]
  cases u with
  | nil => simp
  | cons b bs => simp [hu b]

theorem rtakeWhile_append_ws {ws u : Text} (hws : ∀ b ∈ ws, isWs b = true) (hu : ∀ b ∈ u, isWs b = false) :
    (u ++ ws).rtakeWhile isWs = ws := by
  rw [List.rtakeWhile, List.reverse_append, takeWhile_ws_append (by simpa using hws) (by simpa using hu),
    List.reverse_reverse]

/-- A text that begins and ends with a word is trimmed. -/
theorem trim_eq_self_of_words {a b : Text} (ha : a ≠ []) (hb : b ≠ []) (haws : ∀ c ∈ a, isWs c = false)
    (hbws : ∀ c ∈ b, isWs c = false) (u : Text) : trim (a ++ u ++ b) = a ++ u ++ b := by
  have hlast : ∀ c, (u ++ b).getLast? = some c → isWs c = false := fun c hc => by
    rw [List.getLast?_append_of_ne_nil _ hb] at hc
    exact hbws c (List.mem_of_getLast? hc)
  rw [List.append_assoc, trim_word_append ha haws, trimRight_eq_self hlast]

theorem isOpChar_of_mem_map_byte {ws : List Ws} {b : Byte} (h : b ∈ ws.map Ws.byte) : isOpChar b = false := by
  obtain ⟨w, -, rfl⟩ := List.mem_map.1 h
  cases w <;> decide

theorem CmpOp.semicolon_not_mem_text (op : CmpOp) : 0x3B#8 ∉ op.text := by cases op <;> decide

section
variable {l r : Operand} (hl : l.wf = true) (hr : r.wf = true) (pre post : List Ws) (op : CmpOp)
include hl hr

/-- A condition between well-formed operands is cut at its own operator. -/
theorem cutAtFirst_condText : cutAtFirst (CondForm.cmp l pre op post r).text CmpOp.searchOrder =
    some (operandText l ++ pre.map Ws.byte, op, post.map Ws.byte ++ operandText r) := by
  have hchars : ∀ b ∈ operandChars, isOpChar b = false := by decide
  have hop {x : Operand} (hx : x.wf = true) : ∀ b ∈ operandText x, isOpChar b = false :=
    fun b hb => hchars b (mem_operandChars hx b hb)
  have hws (ws : List Ws) : ∀ b ∈ ws.map Ws.byte, isOpChar b = false := fun _ => isOpChar_of_mem_map_byte
  rw [CondForm.text, List.append_assoc _ (post.map Ws.byte)]
  exact cutAtFirst_of_operator (List.forall_mem_append.2 ⟨hop hl, hws pre⟩)
    (List.forall_mem_append.2 ⟨hws post, hop hr⟩) op

theorem trim_condText : trim (CondForm.cmp l pre op post r).text = (CondForm.cmp l pre op post r).text := by
  have h := trim_eq_self_of_words (operandText_ne_nil hl) (operandText_ne_nil hr) (isWs_of_mem_operandText hl)
    (isWs_of_mem_operandText hr) (pre.map Ws.byte ++ op.text ++ post.map Ws.byte)
  simpa [CondForm.text] using h

theorem semicolon_not_mem_condText : 0x3B#8 ∉ (CondForm.cmp l pre op post r).text := by
  have hws (ws : List Ws) : 0x3B#8 ∉ ws.map Ws.byte := fun h => absurd (isWs_of_mem_map_byte h) (by decide)
  simp only [CondForm.text, List.mem_append, not_or]
  exact ⟨⟨⟨⟨not_mem_operandText hl (by decide), hws pre⟩, op.semicolon_not_mem_text⟩, hws post⟩,
    not_mem_operandText hr (by decide)⟩

end

theorem ReadBack.condForm_of_wf {f : CondForm} (h : f.wf = true) : ReadBack parseCondForm f.text f := by
  cases f with
  | noOp t => cases h
  | cmp l pre op post r =>
    obtain ⟨hl, hr⟩ := Bool.and_eq_true_iff.1 h
    have hlws := isWs_of_mem_operandText hl
    have hrws := isWs_of_mem_operandText hr
    have hws (ws : List Ws) : ∀ b ∈ ws.map Ws.byte, isWs b = true := fun _ => isWs_of_mem_map_byte
    refine ⟨?_, semicolon_not_mem_condText hl hr pre post op⟩
    rw [trim_condText hl hr, parseCondForm_of_cut (cutAtFirst_condText hl hr pre post op),
      trim_append_ws (hws pre), trim_ws_append (hws post), trim_eq_self_of_no_ws hlws,
      trim_eq_self_of_no_ws hrws, rtakeWhile_append_ws (hws pre) hlws, takeWhile_ws_append (hws post) hrws,
      wsOf_map_byte, wsOf_map_byte, parseOperand_operandText hl, parseOperand_operandText hr]

theorem ReadBack.parsed_condForm {t : Text} (ht : trim t = t) (hc : 0x3B#8 ∉ t) :
    ReadBack parseCondForm (parseCondForm t).text (parseCondForm t) := by
  rw [conditionParsingKeepsTheText t ht]
  exact .of_trimmed _ ht hc

/-! Instructions -/

/-- A written operand is well-formed. -/
theorem Operand.wf_of_wfDest {x : Operand} (h : x.wfDest = true) : x.wf = true :=
  (Bool.and_eq_true_iff.1 h).1

theorem ReadBack.instr_of_wf {i : Instr} (h : i.wf = true) :
    ReadBack (fun rest => i.opcode.build rest) i.restText i := by
  cases i with
  | ver f => exact (valueForm_of_wf h).map Instr.ver
  | init f => exact (pairForm_of_wf equals_separates h).map Instr.init
  | mov f => exact (pairForm_of_wf comma_separates h).map Instr.mov
  | qmov f => exact (pairForm_of_wf comma_separates (PairForm.wf_of_wfLocs h)).map Instr.qmov
  | add f => exact (pairForm_of_wf comma_separates h).map Instr.add
  | sub f => exact (pairForm_of_wf comma_separates h).map Instr.sub
  | mul f => exact (pairForm_of_wf comma_separates h).map Instr.mul
  | div f => exact (pairForm_of_wf comma_separates h).map Instr.div
  | out x => exact (operand_of_wf h).map Instr.out
  | ifc f => exact (condForm_of_wf h).map Instr.ifc
  | clr x => exact (operand_of_wf (Operand.wf_of_wfDest h)).map Instr.clr
  | halt x => exact (operand_of_wf h).map Instr.halt

theorem ReadBack.built_instr (o : Opcode) {t : Text} (ht : trim t = t) (hc : 0x3B#8 ∉ t) :
    ReadBack (fun rest => (o.build t).opcode.build rest) (o.build t).restText (o.build t) := by
  cases o with
  | ver => exact (parsed_valueForm ht hc).map Instr.ver
  | init => exact (parsed_pairForm equals_separates ht hc).map Instr.init
  | mov => exact (parsed_pairForm comma_separates ht hc).map Instr.mov
  | qmov => exact (parsed_pairForm comma_separates ht hc).map Instr.qmov
  | add => exact (parsed_pairForm comma_separates ht hc).map Instr.add
  | sub => exact (parsed_pairForm comma_separates ht hc).map Instr.sub
  | mul => exact (parsed_pairForm comma_separates ht hc).map Instr.mul
  | div => exact (parsed_pairForm comma_separates ht hc).map Instr.div
  | out => exact (parsed_operand ht hc).map Instr.out
  | ifc => exact (parsed_condForm ht hc).map Instr.ifc
  | clr => exact (parsed_operand ht hc).map Instr.clr
  | halt => exact (parsed_operand ht hc).map Instr.halt

/-- Settles O2: the operand part of a well-formed instruction is read back by its format. -/
theorem wellFormedInstructionsRoundTrip : Obligations.WellFormedInstructionsRoundTrip :=
  fun _ h => decodeRaw_encode_of_readBack (.instr_of_wf h)

/-- Settles O3: what an opcode builds from the rest of a line, which is trimmed and has no semicolon, is read
back by its format. -/
theorem decodedInstructionsRoundTrip : Obligations.DecodedInstructionsRoundTrip := by
  intro line i h
  obtain ⟨o, rfl⟩ := eq_build_of_decodeLine h
  refine decodeRaw_encode_of_readBack (.built_instr o (trim_trim _) fun hc => ?_)
  exact not_mem_stripComment line (mem_of_mem_trim ((List.dropWhile_suffix _).subset (mem_of_mem_trim hc)))

end Sys2Proof

namespace Sys2Proof.Machine

/-! ### Values of literals and registers -/

/-- Settles O7: the register index is one digit character. -/
theorem registerTextsAreOneDigit : Obligations.RegisterTextsAreOneDigit := by
  intro u
  refine ⟨fun i hu => ?_, fun hu => ?_⟩
  · rw [parseOperand_R, regIndex?_eq_some.2 hu, Option.elim_some]
  · have hnone : regIndex? u = none :=
      Option.eq_none_iff_forall_ne_some.2 fun i hi => hu i (regIndex?_eq_some.1 hi)
    rw [parseOperand_R, hnone, Option.elim_none]

section
variable {α : Type} {f : Byte → Option α}

/-- A text of digit characters is a literal whose digits have the numbers of the table. -/
theorem readLiteral?_of_table (mk : α → List α → Literal) {g : α → Nat} {table : List (Byte × Nat)}
    (h : ∀ p ∈ table, ∃ d, f p.1 = some d ∧ g d = p.2) {ps : List (Byte × Nat)} (hne : ps ≠ [])
    (hp : ∀ p ∈ ps, p ∈ table) :
    ∃ d ds, readLiteral? f mk (ps.map Prod.fst) = some (mk d ds) ∧ (d :: ds).map g = ps.map Prod.snd := by
  obtain ⟨ds, hds, hval⟩ := digits?_of_table h ps hp
  cases ds with
  | nil => exact absurd (List.map_eq_nil_iff.1 hval.symm) hne
  | cons d ds => exact ⟨d, ds, readLiteral?_of_digits hds, hval⟩

/-- A text without a digit, or with a character that is none, is no literal. -/
theorem readLiteral?_of_not_digits (mk : α → List α → Literal) {char : α → Byte} {chars t : Text}
    (hf : ∀ {b d}, f b = some d ↔ b = char d) (hchars : ∀ d, char d ∈ chars)
    (h : t = [] ∨ ∃ b ∈ t, b ∉ chars) : readLiteral? f mk t = none := by
  refine readLiteral?_eq_none (h.imp_right fun ⟨b, hb, hbc⟩ => ⟨b, hb, ?_⟩)
  exact Option.eq_none_iff_forall_ne_some.2 fun d hd => hbc (hf.1 hd ▸ hchars d)

end

/-- The value of a literal is its number modulo 256 (rule R46). -/
theorem toNat_literalValue (l : Literal) : (literalValue l).toNat = literalNumber l % 256 :=
  BitVec.toNat_ofNat ..

theorem toNat_literalValue_bin (d : Fin 2) (ds : List (Fin 2)) :
    (literalValue (.bin d ds)).toNat = Nat.ofDigits 2 ((d :: ds).map Fin.val).reverse % 256 := by
  rw [toNat_literalValue, literalNumber, digitsValue_eq_ofDigits]

theorem toNat_literalValue_hex (d : Fin 22) (ds : List (Fin 22)) :
    (literalValue (.hex d ds)).toNat = Nat.ofDigits 16 ((d :: ds).map hexValue).reverse % 256 := by
  rw [toNat_literalValue, literalNumber, digitsValue_eq_ofDigits]

theorem toNat_literalValue_dec (d : Fin 10) (ds : List (Fin 10)) :
    (literalValue (.dec d ds)).toNat = Nat.ofDigits 10 ((d :: ds).map Fin.val).reverse % 256 := by
  rw [toNat_literalValue, literalNumber, digitsValue_eq_ofDigits]

/-- Settles O8: texts by the tables of digit characters, literals by Mathlib's number of their
digits. -/
theorem literalsReadTheirDigitsModulo256 : Obligations.LiteralsReadTheirDigitsModulo256 := by
  refine ⟨fun ps s hne hp => ?_, fun ps s hne hp => ?_, fun ps s hne hp => ?_, toNat_literalValue_bin,
    toNat_literalValue_hex, toNat_literalValue_dec, fun t ht => ?_, fun t ht => ?_,
    fun t ht h0b h0x hR hbr => ?_⟩
  · obtain ⟨d, ds, hl, hval⟩ := readLiteral?_of_table (f := binDigit?) .bin (g := Fin.val) (by decide) hne hp
    refine ⟨literalValue (.bin d ds), ?_, by rw [toNat_literalValue_bin, hval]⟩
    rw [parseOperand_bin, binLiteral?_eq, hl, literalOr, resolve]
  · obtain ⟨d, ds, hl, hval⟩ := readLiteral?_of_table (f := hexDigit?) .hex (g := hexValue) (by decide) hne hp
    refine ⟨literalValue (.hex d ds), ?_, by rw [toNat_literalValue_hex, hval]⟩
    rw [parseOperand_hex, hexLiteral?_eq, hl, literalOr, resolve]
  · obtain ⟨d, ds, hl, hval⟩ := readLiteral?_of_table (f := decDigit?) .dec (g := Fin.val) (by decide) hne hp
    refine ⟨literalValue (.dec d ds), ?_, by rw [toNat_literalValue_dec, hval]⟩
    have hdigits : ∀ b ∈ ps.map Prod.fst, b ∈ ofString "0123456789" := fun b hb => by
      obtain ⟨p, hp', rfl⟩ := List.mem_map.1 hb
      exact (List.of_mem_zip (hp p hp')).1
    rw [parseOperand_decimal hdigits, decLiteral?_eq, hl, literalOr, resolve]
  · rw [parseOperand_bin, binLiteral?_eq, readLiteral?_of_not_digits _ binDigit?_eq_some (by decide) ht,
      literalOr]
  · rw [parseOperand_hex, hexLiteral?_eq, readLiteral?_of_not_digits _ hexDigit?_eq_some (by decide) ht,
      literalOr]
  · rw [parseOperand_other h0b h0x hR hbr, decLiteral?_eq,
      readLiteral?_of_not_digits _ decDigit?_eq_some (by decide) ht, literalOr]

/-! ### Values and locations of operands (rules R47, R48) -/

theorem resolve_mem_of_ok {x : Operand} {s : State} {a : Byte} (h : resolve x s = .ok a) :
    resolve (.mem x) s = .ok (s.memRead a) := by
  rw [resolve, h]

theorem resolve_mem_of_error {x : Operand} {s : State} {e : MachineError} (h : resolve x s = .error e) :
    resolve (.mem x) s = .error e := by
  rw [resolve, h]

theorem loc_mem_of_ok {x : Operand} {s : State} {a : Byte} (h : resolve x s = .ok a) :
    loc (.mem x) s = .ok (.mem a) := by
  rw [loc, h]

/-- Settles O14, by induction on the brackets. -/
theorem operandValueIsRepeatedMemoryRead : Obligations.OperandValueIsRepeatedMemoryRead := by
  intro x s
  induction x with
  | mem inner ih =>
    obtain ⟨ihv, ihe⟩ := ih
    refine ⟨fun v hv => ?_, fun e he => resolve_mem_of_error (ihe e he)⟩
    rw [resolve_mem_of_ok (ihv v hv), operandDepth, Function.iterate_succ_apply']
  | _ => exact ⟨fun _ => id, fun _ => id⟩

/-- The content of the location an operand names is its value (rule R60). -/
theorem resolve_of_loc {x : Operand} {s : State} {l : Location} (h : loc x s = .ok l) :
    resolve x s = .ok (s.readLoc l) := by
  cases x with
  | reg i =>
    cases h
    rfl
  | mem inner =>
    cases hin : resolve inner s with
    | ok a =>
      rw [loc_mem_of_ok hin] at h
      cases h
      exact resolve_mem_of_ok hin
    | error e => rw [loc_of_resolve_error (resolve_mem_of_error hin)] at h; cases h
  | lit _ | badReg _ | bad _ => cases h

/-- Settles O15, by the operand forms. -/
theorem locationContentIsTheValue : Obligations.LocationContentIsTheValue :=
  ⟨fun _ _ => ⟨rfl, rfl⟩, fun _ _ _ h => ⟨resolve_mem_of_ok h, loc_mem_of_ok h⟩, fun _ _ => rfl,
    fun _ _ => rfl, fun _ _ => rfl, fun _ _ _ => resolve_of_loc⟩

theorem resolve_of_wf {x : Operand} (h : x.wf = true) (s : State) : ∃ v, resolve x s = .ok v := by
  induction x with
  | lit l => exact ⟨_, rfl⟩
  | reg i => exact ⟨_, rfl⟩
  | mem inner ih =>
    obtain ⟨a, ha⟩ := ih h
    exact ⟨_, resolve_mem_of_ok ha⟩
  | badReg _ | bad _ => cases h

theorem loc_of_wfDest {x : Operand} (h : x.wfDest = true) (s : State) : ∃ l, loc x s = .ok l := by
  cases x with
  | reg i => exact ⟨_, rfl⟩
  | mem inner =>
    obtain ⟨a, ha⟩ := resolve_of_wf (x := inner) (Operand.wf_of_wfDest (x := .mem inner) h) s
    exact ⟨_, loc_mem_of_ok ha⟩
  | lit _ | badReg _ | bad _ => cases h

/-- An error of an operand text: Invalid Register or Malformed Operand (rules R89, R90). -/
inductive IsOperandError : MachineError → Prop where
  | invalidRegister (t : Text) : IsOperandError (.invalidRegister t)
  | malformedOperand (t : Text) : IsOperandError (.malformedOperand t)

theorem IsOperandError.ne_divisionByZero {e : MachineError} (h : IsOperandError e) : e ≠ .divisionByZero := by
  cases h <;> simp

/-- What raises one operand error in every state raises one of the two kinds in every state. -/
theorem IsOperandError.kind {α : Type} {r : State → Except MachineError α} {e : MachineError}
    (he : IsOperandError e) (h : ∀ s, r s = .error e) :
    ∃ t, (∀ s, r s = .error (.invalidRegister t)) ∨ (∀ s, r s = .error (.malformedOperand t)) := by
  cases he with
  | invalidRegister t => exact ⟨t, .inl h⟩
  | malformedOperand t => exact ⟨t, .inr h⟩

/-- An ill-formed operand has one error, that of the text inside its brackets, in every state. -/
theorem resolve_of_not_wf {x : Operand} (h : x.wf = false) :
    ∃ e, IsOperandError e ∧ ∀ s, resolve x s = .error e := by
  induction x with
  | mem inner ih =>
    obtain ⟨e, he, hin⟩ := ih h
    exact ⟨e, he, fun s => resolve_mem_of_error (hin s)⟩
  | badReg t => exact ⟨_, .invalidRegister t, fun _ => rfl⟩
  | bad t => exact ⟨_, .malformedOperand t, fun _ => rfl⟩
  | lit _ | reg _ => cases h

/-- An operand that is no well-formed written operand has one error in every state where a location is
needed. -/
theorem loc_of_not_wfDest {x : Operand} (h : x.wfDest = false) :
    ∃ e, IsOperandError e ∧ ∀ s, loc x s = .error e := by
  rcases Bool.and_eq_false_iff.1 h with hwf | hloc
  · obtain ⟨e, he, hx⟩ := resolve_of_not_wf hwf
    exact ⟨e, he, fun s => loc_of_resolve_error (hx s)⟩
  · cases x with
    | lit l => exact ⟨_, .malformedOperand _, fun _ => rfl⟩
    | badReg t => exact ⟨_, .invalidRegister t, fun _ => rfl⟩
    | bad t => exact ⟨_, .malformedOperand t, fun _ => rfl⟩
    | reg _ | mem _ => cases hloc

/-- Settles O16: values and locations of well-formed operands, and the one error of the others. -/
theorem operandErrorsDependOnTheTextAlone : Obligations.OperandErrorsDependOnTheTextAlone := by
  refine ⟨fun _ => resolve_of_wf, fun _ => loc_of_wfDest, fun x h => ?_, fun x h => ?_⟩
  · obtain ⟨e, he, hx⟩ := resolve_of_not_wf h
    exact he.kind hx
  · obtain ⟨e, he, hx⟩ := loc_of_not_wfDest h
    exact he.kind hx

/-! ### Errors of instructions -/

theorem evalCond_of_left_error {l r : Operand} {pre post : List Ws} {op : CmpOp} {s : State}
    {e : MachineError} (h : resolve l s = .error e) : evalCond (.cmp l pre op post r) s = .error e := by
  rw [evalCond, h]

theorem evalCond_of_right_error {l r : Operand} {pre post : List Ws} {op : CmpOp} {s : State} {a : Byte}
    {e : MachineError} (hl : resolve l s = .ok a) (hr : resolve r s = .error e) :
    evalCond (.cmp l pre op post r) s = .error e := by
  simp only [evalCond, hl, hr]

/-- `IF` takes the error of its condition (rule R75). -/
theorem exec_ifc_of_error {f : CondForm} {s : State} {e : MachineError} (h : evalCond f s = .error e) :
    exec (.ifc f) s = .next (takeError e s) :=
  exec_of_instrRule_error (by rw [instrRule, ifRule, h])

section
variable {x : Operand} {s : State} {e : MachineError}

theorem exec_ver_of_error (h : resolve x s = .error e) : exec (.ver (.eq x)) s = .next (takeError e s) :=
  exec_of_instrRule_error (withValue_of_error h _)

theorem exec_out_of_error (h : resolve x s = .error e) : exec (.out x) s = .next (takeError e s) :=
  exec_of_instrRule_error (withValue_of_error h _)

theorem exec_halt_of_error (h : resolve x s = .error e) : exec (.halt x) s = .next (takeError e s) :=
  exec_of_instrRule_error (withValue_of_error h _)

theorem exec_clr_of_error (h : loc x s = .error e) : exec (.clr x) s = .next (takeError e s) :=
  exec_of_instrRule_error (withLoc_of_error h _)

theorem exec_qmov_of_source_error {d : Operand} {l : Location} (hd : loc d s = .ok l) (h : loc x s = .error e) :
    exec (.qmov (.pair d x)) s = .next (takeError e s) :=
  exec_of_instrRule_error ((withLoc_of_ok hd _).trans (withLoc_of_error h _))

end

/-- Settles O34: each rule begins with its operand or condition. -/
theorem oneOperandAndConditionErrors : Obligations.OneOperandAndConditionErrors := fun _ =>
  ⟨fun _ => rfl, fun _ _ h => ⟨exec_ver_of_error h, exec_out_of_error h, exec_halt_of_error h⟩,
    fun _ _ => exec_clr_of_error, fun _ _ _ _ => exec_qmov_of_source_error, fun _ => rfl,
    fun _ _ _ _ _ _ h => exec_ifc_of_error (evalCond_of_left_error h),
    fun _ _ _ _ _ _ _ hl hr => exec_ifc_of_error (evalCond_of_right_error hl hr)⟩

/-- A two-operand instruction with an ill-formed destination, source or rest takes one error in every state. -/
theorem exec_pair_of_not_wf {c : PairForm → Instr}
    (hc : c ∈ [Instr.init, Instr.mov, Instr.qmov, Instr.add, Instr.sub, Instr.mul, Instr.div]) {f : PairForm}
    (h : f.wf = false) : ∃ e, IsOperandError e ∧ ∀ s, exec (c f) s = .next (takeError e s) := by
  have herr := twoOperandErrorsComeInOrder c hc
  cases f with
  | noSep rest =>
    refine ⟨_, .malformedOperand rest, fun s => ?_⟩
    obtain ⟨hrest, -, -⟩ := herr s
    exact hrest rest
  | pair d x =>
    cases hd : d.wfDest with
    | false =>
      obtain ⟨e, he, hloc⟩ := loc_of_not_wfDest hd
      refine ⟨e, he, fun s => ?_⟩
      obtain ⟨-, hdest, -⟩ := herr s
      exact hdest d x e (hloc s)
    | true =>
      obtain ⟨e, he, hx⟩ := resolve_of_not_wf (x := x) (by simpa [PairForm.wf, hd] using h)
      refine ⟨e, he, fun s => ?_⟩
      obtain ⟨l, hl⟩ := loc_of_wfDest hd s
      obtain ⟨-, -, hsource⟩ := herr s
      exact hsource d x l e hl (hx s)

/-- `QMOV` also takes the error of a source that names no location (rule R58). -/
theorem exec_qmov_of_not_wfLocs {f : PairForm} (h : f.wfLocs = false) :
    ∃ e, IsOperandError e ∧ ∀ s, exec (.qmov f) s = .next (takeError e s) := by
  cases hf : f.wf with
  | false => exact exec_pair_of_not_wf (by simp) hf
  | true =>
    cases f with
    | noSep rest => cases hf
    | pair d x =>
      obtain ⟨hd, -⟩ := Bool.and_eq_true_iff.1 hf
      obtain ⟨e, he, hx⟩ := loc_of_not_wfDest (x := x) (by simpa [PairForm.wfLocs, hd] using h)
      refine ⟨e, he, fun s => ?_⟩
      obtain ⟨l, hl⟩ := loc_of_wfDest hd s
      exact exec_qmov_of_source_error hl (hx s)

/-- `IF` without an operator, or with an ill-formed side, takes one error in every state (rules R73, R74). -/
theorem exec_ifc_of_not_wf {f : CondForm} (h : f.wf = false) :
    ∃ e, e ≠ .divisionByZero ∧ ∀ s, exec (.ifc f) s = .next (takeError e s) := by
  cases f with
  | noOp t => exact ⟨.invalidCondition t, by simp, fun _ => rfl⟩
  | cmp l pre op post r =>
    cases hl : l.wf with
    | false =>
      obtain ⟨e, he, hx⟩ := resolve_of_not_wf hl
      exact ⟨e, he.ne_divisionByZero, fun s => exec_ifc_of_error (evalCond_of_left_error (hx s))⟩
    | true =>
      obtain ⟨e, he, hx⟩ := resolve_of_not_wf (x := r) (by simpa [CondForm.wf, hl] using h)
      refine ⟨e, he.ne_divisionByZero, fun s => ?_⟩
      obtain ⟨a, ha⟩ := resolve_of_wf hl s
      exact exec_ifc_of_error (evalCond_of_right_error ha (hx s))

/-- An ill-formed instruction takes one error in every state, and that is not Division By Zero. -/
theorem exec_of_not_wf {i : Instr} (h : i.wf = false) :
    ∃ e, e ≠ .divisionByZero ∧ ∀ s, exec i s = .next (takeError e s) := by
  have hop {i : Instr} (h : ∃ e, IsOperandError e ∧ ∀ s, exec i s = .next (takeError e s)) :
      ∃ e, e ≠ .divisionByZero ∧ ∀ s, exec i s = .next (takeError e s) :=
    h.imp fun _ => And.imp_left IsOperandError.ne_divisionByZero
  have hvalue {x : Operand} (hx : x.wf = false) {c : Operand → Instr}
      (hc : ∀ {s e}, resolve x s = .error e → exec (c x) s = .next (takeError e s)) :
      ∃ e, e ≠ .divisionByZero ∧ ∀ s, exec (c x) s = .next (takeError e s) :=
    hop ((resolve_of_not_wf hx).imp fun _ => And.imp_right fun herr s => hc (herr s))
  cases i with
  | ver f =>
    cases f with
    | noEq rest => exact hop ⟨_, .malformedOperand rest, fun _ => rfl⟩
    | eq x => exact hvalue (c := fun x => .ver (.eq x)) h exec_ver_of_error
  | out x => exact hvalue h exec_out_of_error
  | halt x => exact hvalue h exec_halt_of_error
  | clr x => exact hop ((loc_of_not_wfDest h).imp fun _ => And.imp_right fun herr s => exec_clr_of_error (herr s))
  | qmov f => exact hop (exec_qmov_of_not_wfLocs h)
  | ifc f => exact exec_ifc_of_not_wf h
  | init f | mov f | add f | sub f | mul f | div f => exact hop (exec_pair_of_not_wf (by simp) h)

/-- Taking an error leaves the state with its line added (rules R95, R96). -/
theorem afterError_takeError (e : MachineError) (s : State) : AfterError e s (takeError e s) :=
  ⟨s.readLoc_takeError e, rfl, ⟨rfl, rfl, rfl, rfl⟩, rfl⟩

/-- Settles O32: an ill-formed instruction takes its error. -/
theorem illFormedInstructionsTakeTheirError : Obligations.IllFormedInstructionsTakeTheirError := by
  intro i h
  obtain ⟨e, he, hi⟩ := exec_of_not_wf h
  exact ⟨e, he, fun s => ⟨_, hi s, afterError_takeError e s⟩⟩

/-- Settles O60: brackets pass an error on, and the other clauses are the definitions. -/
theorem errorLinesNameTheFailingText : Obligations.ErrorLinesNameTheFailingText := by
  refine ⟨fun _ _ => ⟨rfl, rfl, rfl, rfl⟩, fun _ _ => rfl, fun x s e h => ?_, fun _ _ => rfl,
    fun _ => ⟨rfl, rfl, rfl, rfl, rfl, rfl⟩⟩
  exact ⟨resolve_mem_of_error h, loc_of_resolve_error (resolve_mem_of_error h)⟩

/-- Settles O38: an instruction attempts its rule. -/
theorem everyInstructionCompletes : Obligations.EveryInstructionCompletes := exec_completes

/-- Settles O31: the empty line decodes to the empty instruction. -/
theorem emptyLinesDoNothing : Obligations.EmptyLinesDoNothing := fun _ => rfl

/-! ### The statements on texts -/

/-- `indented` looks at two characters (rule R34). -/
theorem indented_iff (t : Text) : indented t = true ↔ BeginsWithTwoSpaces t := by
  match t with
  | [] | [_] => simp [indented, BeginsWithTwoSpaces]
  | _ :: _ :: _ => simp [indented, BeginsWithTwoSpaces]

/-- Settles O56: the whitespace set, and the two characters `indented` looks at. -/
theorem whitespaceAndIndentation : Obligations.WhitespaceAndIndentation := ⟨isWs_iff, indented_iff⟩

/-- Settles O10: what is trimmed is the whitespace at the two ends. -/
theorem trimRemovesEdgeWhitespace : Obligations.TrimRemovesEdgeWhitespace := fun t =>
  ⟨_, _, (takeWhile_append_trim_append_rtakeWhile t).symm, fun _ => List.mem_takeWhile_imp,
    fun _ => List.mem_rtakeWhile_imp, fun _ => isWs_of_head?_trim, fun _ => isWs_of_getLast?_trim⟩

/-- Settles O11: decoding reads the text before the semicolon only. -/
theorem commentsAreCutAtTheFirstSemicolon : Obligations.CommentsAreCutAtTheFirstSemicolon := by
  refine ⟨fun _ => stripComment_of_not_mem, fun _ b h => stripComment_append h b, fun a b h => ?_⟩
  rw [decodeRaw, lineText, stripComment_append h, decodeRaw, lineText, stripComment_of_not_mem h]

/-- Settles O57: token 0 and what follows it are the text cut at the first whitespace. -/
theorem tokenZeroEndsAtTheFirstWhitespace : Obligations.TokenZeroEndsAtTheFirstWhitespace := fun t =>
  ⟨t.dropWhile fun b => !isWs b, (token0_append_dropWhile t).symm,
    fun b hb hws => by simpa [isWs_of_mem_token0 hb] using (isWs_iff b).2 hws,
    fun b hb => (isWs_iff b).1 (isWs_of_head?_after_token0 hb), rfl⟩

/-! ### The lines of a program (rule R33) -/

theorem splitLines_ne_nil (p : Text) : splitLines p ≠ [] := List.length_pos_iff.1 (lineCount_pos p)

theorem splitLines_lf (bs : Text) : splitLines (0x0A#8 :: bs) = [] :: splitLines bs := if_pos rfl

/-- A character other than the line feed begins the first line of what follows. -/
theorem splitLines_cons {b : Byte} (hb : b ≠ 0x0A#8) (bs : Text) :
    ∃ l ls, splitLines bs = l :: ls ∧ splitLines (b :: bs) = (b :: l) :: ls := by
  obtain ⟨l, ls, h⟩ := List.exists_cons_of_ne_nil (splitLines_ne_nil bs)
  exact ⟨l, ls, h, by simp [splitLines, hb, h]⟩

theorem joinLines_nil_cons {ls : List Text} (h : ls ≠ []) : joinLines ([] :: ls) = 0x0A#8 :: joinLines ls := by
  obtain ⟨m, ms, rfl⟩ := List.exists_cons_of_ne_nil h
  rfl

theorem joinLines_cons_cons (b : Byte) (l : Text) (ls : List Text) :
    joinLines ((b :: l) :: ls) = b :: joinLines (l :: ls) := by
  cases ls <;> rfl

/-- Settles O12, by induction on the text: a line feed begins an empty line, any other character extends the
first line. -/
theorem linesAreTheTextCutAtLineFeeds : Obligations.LinesAreTheTextCutAtLineFeeds := by
  intro p
  induction p with
  | nil => simp [splitLines, joinLines, lineCount]
  | cons b bs ih =>
    obtain ⟨hjoin, hlf, hcount⟩ := ih
    by_cases hb : b = 0x0A#8
    · subst hb
      rw [lineCount, splitLines_lf, joinLines_nil_cons (splitLines_ne_nil bs), hjoin]
      refine ⟨rfl, List.forall_mem_cons.2 ⟨List.not_mem_nil, hlf⟩, ?_⟩
      rw [List.length_cons, ← lineCount, hcount, List.count_cons_self]
    · obtain ⟨l, ls, hbs, hsplit⟩ := splitLines_cons hb bs
      rw [hbs] at hjoin hlf
      rw [lineCount, hbs] at hcount
      rw [lineCount, hsplit, joinLines_cons_cons, hjoin, List.count_cons_of_ne hb]
      obtain ⟨hl, hls⟩ := List.forall_mem_cons.1 hlf
      refine ⟨rfl, List.forall_mem_cons.2 ⟨?_, hls⟩, hcount⟩
      exact List.not_mem_cons_of_ne_of_not_mem (Ne.symm hb) hl

/-! ### Dispatch and formats (rules R37 to R39) -/

/-- Settles O58: the table of mnemonics, and each format's cut with and without its separator. -/
theorem formatsCutTheRestOfTheLine : Obligations.FormatsCutTheRestOfTheLine := by
  refine ⟨rfl, fun t c hc => ?_, fun t ht hno => ?_, fun _ => rfl, fun a b ha c hc => ?_, fun a b ha => ?_,
    fun a b => ⟨congrArg _ (parseValueForm_eq b), fun ha => congrArg _ (parseValueForm_noEq ha)⟩,
    fun _ => ⟨rfl, rfl, rfl, rfl⟩⟩
  · have hmnemonic : c.1.mnemonic = c.2 := by
      revert c
      decide
    exact ⟨hmnemonic, fun htok => decodeLine_of_token0 (htok.trans hmnemonic.symm)⟩
  · have hall (o : Opcode) : o.mnemonic ∈ [ofString "VER", ofString "INIT", ofString "MOV", ofString "QMOV",
        ofString "ADD", ofString "SUB", ofString "MUL", ofString "DIV", ofString "OUT", ofString "IF",
        ofString "CLR", ofString "HALT"] := by
      cases o <;> decide
    exact decodeLine_unknown ht fun o ho => hno (ho ▸ hall o)
  · have hpair := parsePairForm_of_cut ha b
    have hnoSep := parsePairForm_of_no_separator ha
    simp only [List.mem_cons, List.not_mem_nil, or_false] at hc
    rcases hc with rfl | rfl | rfl | rfl | rfl | rfl
    all_goals exact ⟨congrArg _ hpair, congrArg _ hnoSep⟩
  · refine ⟨congrArg _ (parsePairForm_of_cut ha b), congrArg _ (parsePairForm_of_no_separator ha),
      congrArg _ (parseValueForm_noEq fun h => ?_)⟩
    exact ha (List.mem_of_head? h)

/-- Settles O1, by evaluating the decoder on the fifteen lines. -/
theorem exampleLinesDecode : Obligations.ExampleLinesDecode := by
  unfold Obligations.ExampleLinesDecode
  decide +kernel

/-! ### Line classes (rules R76 to R80) -/

/-- The first token is `IF` when the text is `IF` or goes on with whitespace. -/
theorem token0_eq_if_iff (t : Text) : token0 t = Opcode.ifc.mnemonic ↔ FirstTokenIsIf t := by
  constructor
  · intro h
    have ht := token0_append_dropWhile t
    rw [h] at ht
    cases hu : t.dropWhile (fun b => !isWs b) with
    | nil => exact .inl (by rw [← ht, hu]; rfl)
    | cons b u =>
      refine .inr ⟨b, u, (isWs_iff b).1 (isWs_of_head?_after_token0 (t := t) (by rw [hu]; rfl)), ?_⟩
      rw [← ht, hu]
      rfl
  · rintro (rfl | ⟨b, u, hb, rfl⟩)
    · decide
    · obtain ⟨htok, -⟩ := token0_append (tok := Opcode.ifc.mnemonic) (u := b :: u) (by decide) fun c hc => by
        cases hc
        exact (isWs_iff b).2 hb
      exact htok

/-- The three classes at the unit level are told by the line's own text (rules R76, R77). -/
theorem classifyUnit_class (line : Text) :
    ((classifyUnit line).1 = .skip ↔ lineText line = []) ∧
    ((classifyUnit line).1 = .ifHead ↔ FirstTokenIsIf (lineText line)) ∧
    ((classifyUnit line).1 = .plain ↔ lineText line ≠ [] ∧ ¬ FirstTokenIsIf (lineText line)) := by
  have hif := token0_eq_if_iff (lineText line)
  unfold classifyUnit
  split
  · rename_i hnil
    rw [hnil] at hif ⊢
    simp [← hif, token0, Opcode.mnemonic]
  · split <;> simp_all

/-- At the unit level no line belongs to a block. -/
theorem classifyUnit_not_block (line : Text) : (classifyUnit line).1 ∉ [.ifBody, .elseBody, .elseMark] := by
  unfold classifyUnit
  split
  · decide
  · split <;> decide

/-- The classes of block lines and else markers are told by the mode, the indentation and the text, and any
other line is classified as at the unit level (rules R78 to R80). -/
theorem classifyLine_class (m : SegMode) (line : Text) :
    ((classifyLine m line).1 = .ifBody ↔ m = .inIf ∧ indented (stripComment line) = true) ∧
    ((classifyLine m line).1 = .elseBody ↔ m = .inElse ∧ indented (stripComment line) = true) ∧
    ((classifyLine m line).1 = .elseMark ↔
      m = .inIf ∧ ¬ indented (stripComment line) = true ∧ lineText line = elseText) ∧
    ((classifyLine m line).1 ∉ [.ifBody, .elseBody, .elseMark] →
      (classifyLine m line).1 = (classifyUnit line).1) := by
  have hunit := classifyUnit_not_block line
  simp only [List.mem_cons, List.not_mem_nil, or_false, not_or] at hunit
  cases m with
  | unit => simp [classifyLine, hunit]
  | inIf =>
    by_cases hi : indented (stripComment line) = true
    · simp [classifyLine, hi]
    · by_cases he : lineText line = elseText <;> simp [classifyLine, hi, he, hunit]
  | inElse => by_cases hi : indented (stripComment line) = true <;> simp [classifyLine, hi, hunit]

/-- A mode inside a unit is the one after the two classes that lead to it. -/
theorem modeBefore_classified_iff {m : SegMode} {c c' : LineClass} (hm : m ≠ .unit)
    (hc : ∀ d, modeAfter d = m ↔ d = c ∨ d = c') (p : Text) (k : Nat) :
    modeBefore .unit (classified p) k = m ↔ LineBefore p k c c' := by
  cases k with
  | zero => simp [modeBefore, LineBefore, hm.symm]
  | succ j =>
    cases hj : (classified p)[j]? with
    | none => simp [modeBefore, LineBefore, hj, hm.symm]
    | some q =>
      obtain ⟨d, x⟩ := q
      simp [modeBefore, LineBefore, hj, hc, exists_or]

theorem modeBefore_classified_inIf (p : Text) (k : Nat) :
    modeBefore .unit (classified p) k = .inIf ↔ AfterIfPart p k :=
  modeBefore_classified_iff (by simp) (fun d => by cases d <;> simp [modeAfter]) p k

theorem modeBefore_classified_inElse (p : Text) (k : Nat) :
    modeBefore .unit (classified p) k = .inElse ↔ AfterElsePart p k :=
  modeBefore_classified_iff (by simp) (fun d => by cases d <;> simp [modeAfter]) p k

/-- Settles O59: the class of a line by the mode before it, which is that of the line before it. -/
theorem linesAreClassifiedByTheirText : Obligations.LinesAreClassifiedByTheirText := by
  intro p
  refine ⟨classified_length p, fun k line hk => ?_⟩
  obtain ⟨hifBody, helseBody, helseMark, hunit⟩ :=
    classifyLine_class (modeBefore .unit (classified p) k) line
  rw [indented_iff, modeBefore_classified_inIf] at hifBody helseMark
  rw [indented_iff, modeBefore_classified_inElse] at helseBody
  refine ⟨_, classifyFrom_getElem? _ _ k line hk, hifBody, helseBody, helseMark, fun hc => ?_⟩
  have hclass := classifyUnit_class line
  rw [← hunit hc] at hclass
  exact hclass

end Sys2Proof.Machine

/-! SUPPORT. The data movement family: what a write to a location and the diagnostics after it leave, and the
completion of `INIT`, `MOV`, `QMOV` and `CLR`. -/

namespace Sys2Proof.Machine

/-! ### A write to a location with its diagnostic -/

/-- An instruction whose rule writes one location and logs the result changes that location, and no other,
and `LOG` as `V` gates it (rules R48, R71). -/
theorem exec_of_write_and_diag {i : Instr} {s : State} {l : Location} {v : Byte} {line : Text}
    (h : instrRule i s = .ok ((s.writeLoc v l).diag line)) :
    ∃ t, exec i s = .next t ∧ t.readLoc l = v ∧ SameStorageBut l s t ∧ t.verbose = s.verbose ∧
      SameSequencing s t ∧ t.log = s.log ++ diagLines s.verbose line := by
  refine ⟨_, exec_of_instrRule_ok h, by simp, fun k hk => ?_, by simp, by simp [SameSequencing], by simp⟩
  rw [State.readLoc_diag, State.readLoc_writeLoc_other _ _ hk]

/-- A result line begins with the mnemonic and its colon (rule R71). -/
theorem resultLine_eq {mnemonic head : Text} (h : mnemonic ++ ascii [':', ' '] = head) (dest : Text) (v : Byte) :
    resultLine mnemonic dest v = head ++ dest ++ ofString " = " ++ bin8 v := by
  rw [resultLine, h]
  rfl

/-- The result line of a cleared location (rules R58, R70). -/
theorem resultLine_zero {mnemonic head : Text} (h : mnemonic ++ ascii [':', ' '] = head) (dest : Text) :
    resultLine mnemonic dest 0#8 = head ++ dest ++ ofString " = 00000000" := by
  rw [resultLine_eq h, List.append_assoc]
  rfl

/-- The rule `INIT` and `MOV` share succeeds where the destination names a location and the source has a
value (rules R56, R57). -/
theorem moveRule_pair {mnemonic head : Text} (h : mnemonic ++ ascii [':', ' '] = head) {d x : Operand}
    {s : State} {l : Location} {v : Byte} (hl : loc d s = .ok l) (hv : resolve x s = .ok v) :
    moveRule mnemonic (.pair d x) s =
      .ok ((s.writeLoc v l).diag (head ++ operandText d ++ ofString " = " ++ bin8 v)) := by
  rw [← resultLine_eq h]
  exact moveRule_eq_ok.2 ⟨d, x, l, v, rfl, hl, hv, rfl⟩

/-! ### The obligations -/

/-- Settles O19: both instructions attempt the one rule that writes the value and logs it. -/
theorem initAndMovWriteTheValue : Obligations.InitAndMovWriteTheValue := fun _ _ _ _ _ hl hv =>
  ⟨exec_of_write_and_diag (moveRule_pair rfl hl hv), exec_of_write_and_diag (moveRule_pair rfl hl hv)⟩

/-- Settles O20: the zero is written after the copy, so it stays where both operands name one location. -/
theorem qmovCopiesThenClearsTheSource : Obligations.QmovCopiesThenClearsTheSource := by
  intro d x s l m hl hm
  have hrule := qmovRule_eq_ok.2 ⟨d, x, l, m, rfl, hl, hm, rfl⟩
  rw [resultLine_eq rfl, resultLine_zero rfl] at hrule
  refine ⟨_, exec_of_instrRule_ok hrule, by simp, fun hlm => ?_, fun k hkl hkm => ?_, by simp,
    by simp [SameSequencing], ?_⟩
  · simp [State.readLoc_writeLoc_other _ _ hlm]
  · simp [State.readLoc_writeLoc_other _ _ hkl, State.readLoc_writeLoc_other _ _ hkm]
  · simp only [State.diag_log, State.diag_verbose, State.writeLoc_log, State.writeLoc_verbose]
    rfl

/-- Settles O21: the rule writes 0 to the location and logs nothing. -/
theorem clrZeroesOneLocation : Obligations.ClrZeroesOneLocation := fun _ s _ hl =>
  ⟨_, exec_of_instrRule_ok (withLoc_of_ok hl _), by simp, fun _ => s.readLoc_writeLoc_other 0#8, by simp,
    by simp [SameSequencing], by simp⟩

end Sys2Proof.Machine

/-! SUPPORT. The arithmetic family: the four operations as operators on bytes, and the completion of `ADD`, `SUB`,
`MUL` and `DIV`, which attempt one shared rule. -/

namespace Sys2Proof.Machine

/-! ### The operations on bytes -/

/-- The low 8 bits of the exact sum are the sum of the bytes (rules R62, R66). -/
theorem addOp_eq (a b : Byte) : addOp a b = .ok (a + b) := rfl

/-- The low 8 bits of the exact product are the product of the bytes (rules R64, R66). -/
theorem mulOp_eq (a b : Byte) : mulOp a b = .ok (a * b) := rfl

/-- The difference of the bytes is the remainder of the exact difference that is not negative (rule R63, D40). -/
theorem toNat_sub_eq_emod (a b : Byte) : ((a - b).toNat : Int) = ((a.toNat : Int) - (b.toNat : Int)) % 256 := by
  rw [BitVec.toNat_sub]
  omega

/-- The low 8 bits of the exact difference are the difference of the bytes (rules R63, R66). -/
theorem subOp_eq (a b : Byte) : subOp a b = .ok (a - b) := by
  have h : BitVec.ofInt 8 ((a.toNat : Int) - (b.toNat : Int)) = a - b := by
    apply BitVec.eq_of_toNat_eq
    have hsub := toNat_sub_eq_emod a b
    rw [BitVec.toNat_ofInt]
    omega
  rw [subOp, h]

/-- A quotient by a divisor that is not 0 fits in 8 bits (rule R65). -/
theorem divOp_eq (a : Byte) {b : Byte} (hb : b ≠ 0#8) : divOp a b = .ok (a / b) := by
  have hpos : b.toNat ≠ 0 := fun h => hb (BitVec.eq_of_toNat_eq h)
  rw [divOp, if_neg hpos, ← BitVec.toNat_udiv, BitVec.ofNat_toNat, BitVec.setWidth_eq]

/-! ### The rule the instructions share -/

/-- An arithmetic instruction whose operation answers a result writes it to the destination's location, and
changes no other location and nothing else but `LOG` (rules R61, R71). -/
theorem exec_of_aluRule {c : PairForm → Instr} {mnemonic head : Text}
    {op : Byte → Byte → Except MachineError Byte}
    (hc : ∀ f, instrRule (c f) = aluRule mnemonic op f) (hhead : mnemonic ++ ascii [':', ' '] = head)
    {d x : Operand} {s : State} {l : Location} {b r : Byte} (hl : loc d s = .ok l) (hx : resolve x s = .ok b)
    (hr : op (s.readLoc l) b = .ok r) :
    ∃ t, exec (c (.pair d x)) s = .next t ∧ t.readLoc l = r ∧ SameStorageBut l s t ∧
      t.verbose = s.verbose ∧ SameSequencing s t ∧
      t.log = s.log ++ diagLines s.verbose
        (head ++ operandText d ++ ofString " = " ++ bin8 (t.readLoc l)) := by
  have hrule : instrRule (c (.pair d x)) s =
      .ok ((s.writeLoc r l).diag (resultLine mnemonic (operandText d) r)) := by
    rw [hc]
    exact aluRule_eq_ok.2 ⟨d, x, l, b, r, rfl, hl, hx, hr, rfl⟩
  obtain ⟨t, hexec, rfl, hframe⟩ := exec_of_write_and_diag hrule
  rw [resultLine_eq hhead] at hframe
  exact ⟨t, hexec, rfl, hframe⟩

/-! ### The obligations -/

/-- Settles O22: each instruction attempts the shared rule with its operation, and the operators on bytes are
the exact results modulo 256. -/
theorem addSubMulWrapTo8Bits : Obligations.AddSubMulWrapTo8Bits := by
  intro d x s l b hl hx
  refine ⟨?_, ?_, ?_⟩
  · obtain ⟨t, hexec, hval, hframe⟩ := exec_of_aluRule (c := .add) (fun _ => rfl) rfl hl hx (addOp_eq ..)
    exact ⟨t, hexec, hval ▸ BitVec.toNat_add .., hframe⟩
  · obtain ⟨t, hexec, hval, hframe⟩ := exec_of_aluRule (c := .sub) (fun _ => rfl) rfl hl hx (subOp_eq ..)
    exact ⟨t, hexec, hval ▸ toNat_sub_eq_emod .., hframe⟩
  · obtain ⟨t, hexec, hval, hframe⟩ := exec_of_aluRule (c := .mul) (fun _ => rfl) rfl hl hx (mulOp_eq ..)
    exact ⟨t, hexec, hval ▸ BitVec.toNat_mul .., hframe⟩

/-- Settles O23: by a divisor that is not 0, the quotient of the bytes is the floor of the exact quotient. -/
theorem divWritesTheFloorQuotient : Obligations.DivWritesTheFloorQuotient := by
  intro d x s l b hl hx hb
  obtain ⟨t, hexec, hval, hframe⟩ := exec_of_aluRule (c := .div) (fun _ => rfl) rfl hl hx (divOp_eq _ hb)
  exact ⟨t, hexec, hval ▸ BitVec.toNat_udiv, hframe⟩

/-- Settles O29: on bytes, taking away what was added gives the old value back, and both instructions leave
every other location alone. -/
theorem subUndoesAdd : Obligations.SubUndoesAdd := by
  intro i n s
  obtain ⟨t, hadd, hsum, hframe, -⟩ :=
    exec_of_aluRule (c := .add) (d := .reg i) (x := .lit n) (s := s) (fun _ => rfl) rfl rfl rfl (addOp_eq ..)
  obtain ⟨u, hsub, hdiff, hframe', -⟩ :=
    exec_of_aluRule (c := .sub) (d := .reg i) (x := .lit n) (s := t) (fun _ => rfl) rfl rfl rfl (subOp_eq ..)
  refine ⟨t, u, hadd, hsub, fun k => ?_⟩
  by_cases hk : k = .reg i
  · rw [hk, hdiff, hsum, BitVec.add_sub_cancel]
  · exact (hframe' k hk).trans (hframe k hk)

end Sys2Proof.Machine

/-! SUPPORT. The output and system family: the digits of `bin8`, the line of `OUT`, and the completion of `OUT`. -/

namespace Sys2Proof.Machine

/-! ### The digits of a byte (rule R70) -/

@[simp] theorem bin8_length (v : Byte) : (bin8 v).length = 8 := by
  rw [bin8, List.length_map, List.length_range]

theorem bin8_getElem? (v : Byte) {k : Nat} (hk : k < 8) :
    (bin8 v)[k]? = some (bitChar (v.getLsbD (7 - k))) := by
  rw [bin8, List.getElem?_map, List.getElem?_range hk, Option.map_some]

/-- Settles O13: `bin8` maps the bit characters over the positions 0 to 7. -/
theorem bin8IsTheBitsMostSignificantFirst : Obligations.Bin8IsTheBitsMostSignificantFirst :=
  fun v => ⟨bin8_length v, fun _ hk => bin8_getElem? v hk⟩

/-! ### The completion of `OUT` (rule R68) -/

/-- The line with its fixed parts as strings, as the source gives them (rule R68). -/
theorem outLine_eq (x : Text) (v : Byte) :
    outLine x v = ofString "OUT: Output " ++ x ++ ofString " = " ++ bin8 v := rfl

/-- Where the operand has a value, `OUT` appends its line and does not ask for `V`. -/
theorem exec_out_of_value {x : Operand} {s : State} {v : Byte} (h : resolve x s = .ok v) :
    exec (.out x) s = .next (s.emit (outLine (operandText x) v)) :=
  exec_of_instrRule_ok (withValue_of_ok h _)

/-- Settles O25: the next state is the old one with the line appended, which changes no field but `LOG`. -/
theorem outAppendsItsLine : Obligations.OutAppendsItsLine := by
  intro x s v hv
  refine ⟨_, exec_out_of_value hv, s.readLoc_emit _, s.emit_verbose _, by simp [SameSequencing], ?_⟩
  rw [State.emit_log, outLine_eq]

end Sys2Proof.Machine

/-! SUPPORT. The conditions and control flow family: runs line by line to their end, their agreement with the unit
form, the cut and the comparison of a condition, and the steps at the lines of a Conditional Unit. -/

namespace Sys2Proof

/-! ### The cut of a condition (rule R73) -/

theorem CmpOp.text_ne_nil (op : CmpOp) : op.text ≠ [] := by cases op <;> decide

/-- A cut is made at the first operator of the list that occurs, at its leftmost occurrence. -/
theorem cutAtFirst_eq_some {c l r : Text} {op : CmpOp} {ops : List CmpOp}
    (h : cutAtFirst c ops = some (l, op, r)) :
    ∃ earlier later, ops = earlier ++ op :: later ∧ (∀ o ∈ earlier, ¬ o.text <:+: c) ∧
      cutAt op.text c = some (l, r) := by
  induction ops with
  | nil => cases h
  | cons o ops ih =>
    unfold cutAtFirst at h
    split at h
    · rename_i hcut
      cases h
      exact ⟨[], ops, rfl, by simp, hcut⟩
    · rename_i hcut
      obtain ⟨earlier, later, rfl, hearlier, hop⟩ := ih h
      exact ⟨o :: earlier, later, rfl, List.forall_mem_cons.2 ⟨cutAt_none o.text_ne_nil c hcut, hearlier⟩, hop⟩

/-- Without a cut, no operator of the list occurs. -/
theorem cutAtFirst_eq_none {c : Text} {ops : List CmpOp} (h : cutAtFirst c ops = none) :
    ∀ o ∈ ops, ¬ o.text <:+: c := by
  induction ops with
  | nil => simp
  | cons o ops ih =>
    unfold cutAtFirst at h
    split at h
    · cases h
    · rename_i hcut
      exact List.forall_mem_cons.2 ⟨cutAt_none o.text_ne_nil c hcut, ih h⟩

theorem parseCondition_eq_none {c : Text} :
    parseCondition c = none ↔ cutAtFirst c CmpOp.searchOrder = none := by
  unfold parseCondition
  split <;> simp_all

theorem parseCondition_eq_some {c l r : Text} {op : CmpOp} :
    parseCondition c = some (l, op, r) ↔
      ∃ l' r', cutAtFirst c CmpOp.searchOrder = some (l', op, r') ∧ l = trim l' ∧ r = trim r' := by
  constructor
  · intro h
    unfold parseCondition at h
    split at h
    · cases h
    · rename_i hcut
      cases h
      exact ⟨_, _, hcut, rfl, rfl⟩
  · rintro ⟨l', r', hcut, rfl, rfl⟩
    rw [parseCondition, hcut]

/-- Settles O9: the order written out is the search order with each operator's text. -/
theorem conditionsAreCutAtTheFirstOperatorOfTheOrder :
    Obligations.ConditionsAreCutAtTheFirstOperatorOfTheOrder := by
  intro c
  constructor
  · intro l op r h
    obtain ⟨before, after, hcut, hl, hr⟩ := parseCondition_eq_some.1 h
    obtain ⟨earlier, later, hops, hearlier, hop⟩ := cutAtFirst_eq_some hcut
    obtain ⟨hc, hleft⟩ := cutAt_some _ _ _ _ hop
    refine ⟨earlier.map fun o => (o, o.text), later.map fun o => (o, o.text), op.text, before, after, ?_,
      List.forall_mem_map.2 hearlier, rfl, hc, hl, hr, hleft⟩
    calc _ = CmpOp.searchOrder.map fun o => (o, o.text) := rfl
      _ = _ := by rw [hops, List.map_append, List.map_cons]
  · intro h
    have hnone := cutAtFirst_eq_none (parseCondition_eq_none.1 h)
    exact List.forall_mem_map (f := CmpOp.text) (l := CmpOp.searchOrder).2 hnone

end Sys2Proof

namespace Sys2Proof.Machine

/-! ### What reads only the storage -/

theorem resolve_of_sameStorage {s t : State} (h : SameStorage s t) (x : Operand) : resolve x t = resolve x s := by
  induction x with
  | lit l => rfl
  | reg i => exact congrArg Except.ok (h (.reg i))
  | mem inner ih =>
    have hread (a : Byte) : t.memRead a = s.memRead a := h (.mem a)
    simp only [resolve, ih, hread]
  | badReg u => rfl
  | bad u => rfl

theorem loc_of_sameStorage {s t : State} (h : SameStorage s t) (x : Operand) : loc x t = loc x s := by
  cases x with
  | mem inner => simp only [loc, resolve_of_sameStorage h]
  | _ => rfl

theorem evalCond_of_sameStorage {s t : State} (h : SameStorage s t) (f : CondForm) :
    evalCond f t = evalCond f s := by
  cases f with
  | noOp u => rfl
  | cmp l pre op post r => simp only [evalCond, resolve_of_sameStorage h]

/-! ### `pc` and `B` are not read by an instruction -/

/-- The state with `pc` and `B` as run start leaves them: the unit form has neither of them (rules R81, R86). -/
def State.rewind (s : State) : State := { s with pc := 0, branch := .takeNone }

theorem State.sameStorage_rewind (s : State) : SameStorage s s.rewind := State.readLoc_congr rfl rfl

@[simp] theorem State.rewind_halted (s : State) : s.rewind.halted = s.halted := rfl

@[simp] theorem State.rewind_readLoc (s : State) (l : Location) : s.rewind.readLoc l = s.readLoc l :=
  s.sameStorage_rewind l

@[simp] theorem State.rewind_start (s : State) : s.start.rewind = s.start := rfl

@[simp] theorem State.advance_rewind (s : State) : (advance s).rewind = s.rewind := rfl

@[simp] theorem State.writeLoc_rewind (s : State) (v : Byte) (l : Location) :
    (s.writeLoc v l).rewind = s.rewind.writeLoc v l := by
  cases l <;> rfl

@[simp] theorem State.diag_rewind (s : State) (x : Text) : (s.diag x).rewind = s.rewind.diag x :=
  apply_ite State.rewind _ _ _

section
variable {s : State}

theorem withPair_map {f : PairForm} {g : State → State} {k k' : Operand → Operand → Except MachineError State}
    (h : ∀ d x, k' d x = (k d x).map g) : withPair f k' = (withPair f k).map g := by
  cases f with
  | pair d x => exact h d x
  | noSep r => rfl

theorem withLoc_rewind {d : Operand} {k k' : Location → Except MachineError State}
    (h : ∀ l, k' l = (k l).map State.rewind) : withLoc d s.rewind k' = (withLoc d s k).map State.rewind := by
  rw [withLoc, loc_of_sameStorage s.sameStorage_rewind]
  cases hd : loc d s with
  | ok l => rw [withLoc_of_ok hd]; exact h l
  | error e => rw [withLoc_of_error hd]; rfl

theorem withValue_rewind {x : Operand} {k k' : Byte → Except MachineError State}
    (h : ∀ v, k' v = (k v).map State.rewind) : withValue x s.rewind k' = (withValue x s k).map State.rewind := by
  rw [withValue, resolve_of_sameStorage s.sameStorage_rewind]
  cases hx : resolve x s with
  | ok v => rw [withValue_of_ok hx]; exact h v
  | error e => rw [withValue_of_error hx]; rfl

theorem moveRule_rewind (mnemonic : Text) (f : PairForm) :
    moveRule mnemonic f s.rewind = (moveRule mnemonic f s).map State.rewind :=
  withPair_map fun _ _ => withLoc_rewind fun _ => withValue_rewind fun _ => by simp [Except.map]

theorem aluRule_rewind (mnemonic : Text) (op : Byte → Byte → Except MachineError Byte) (f : PairForm) :
    aluRule mnemonic op f s.rewind = (aluRule mnemonic op f s).map State.rewind := by
  refine withPair_map fun _ _ => withLoc_rewind fun l => withValue_rewind fun b => ?_
  rw [State.rewind_readLoc]
  cases op (s.readLoc l) b <;> simp [Except.map]

/-- An instruction's rule neither reads nor writes `pc` and `B` (rules R10, R11). -/
theorem instrRule_rewind (i : Instr) : instrRule i s.rewind = (instrRule i s).map State.rewind := by
  cases i with
  | ver f =>
    cases f with
    | eq x =>
      refine withValue_rewind fun v => ?_
      simp only [Except.map, State.diag_rewind]
      rfl
    | noEq r => rfl
  | init f => exact moveRule_rewind _ f
  | mov f => exact moveRule_rewind _ f
  | qmov f =>
    exact withPair_map fun _ _ => withLoc_rewind fun _ => withLoc_rewind fun _ => by simp [Except.map]
  | add f => exact aluRule_rewind _ addOp f
  | sub f => exact aluRule_rewind _ subOp f
  | mul f => exact aluRule_rewind _ mulOp f
  | div f => exact aluRule_rewind _ divOp f
  | out x => exact withValue_rewind fun _ => rfl
  | ifc f =>
    simp only [instrRule, ifRule, evalCond_of_sameStorage s.sameStorage_rewind]
    cases evalCond f s <;> simp [Except.map]
  | clr x => exact withLoc_rewind fun _ => by simp [Except.map]
  | halt x =>
    refine withValue_rewind fun v => ?_
    simp only [Except.map, State.diag_rewind]
    cases v == 1#8 <;> rfl

theorem attempt_rewind (r : Except MachineError State) :
    attempt s.rewind (r.map State.rewind) = mapNext State.rewind (attempt s r) := by
  cases r <;> rfl

/-- Executing a line neither reads nor writes `pc` and `B`. -/
theorem execute_rewind {x : Text} {t : State} (h : execute x s = .next t) :
    execute x s.rewind = .next t.rewind := by
  rcases hx : decodeLine x with _ | tok | i <;> simp only [execute, hx] at h ⊢
  · cases h; rfl
  · cases h; rfl
  · rw [exec_eq_attempt] at h ⊢
    rw [instrRule_rewind, attempt_rewind, h, mapNext_next]

end

/-! ### Running the lines that are left -/

/-- The lines in order, each with its advance, until `H` is set (rules R84, R86). -/
def runLines : List (LineClass × Text) → State → Outcome
  | [], s => .next s
  | (c, x) :: ls, s => if s.halted then .next s else andThen (runLine c x s) (runLines ls)

theorem runLines_of_halted {s : State} (h : s.halted = true) (ls : List (LineClass × Text)) :
    runLines ls s = .next s := by
  cases ls with
  | nil => rfl
  | cons l ls => exact if_pos h

theorem runLines_cons {s t : State} {c : LineClass} {x : Text} (hh : s.halted = false)
    (h : lineAction c x s = .next t) (ls : List (LineClass × Text)) :
    runLines ((c, x) :: ls) s = runLines ls (advance t) := by
  simp [runLines, hh, runLine, h]

theorem runLines_append {s t : State} {ls ls' : List (LineClass × Text)} (h : runLines ls s = .next t) :
    runLines (ls ++ ls') s = runLines ls' t := by
  induction ls generalizing s with
  | nil => cases h; rfl
  | cons l ls ih =>
    obtain ⟨c, x⟩ := l
    cases hh : s.halted with
    | true =>
      rw [runLines_of_halted hh] at h
      cases h
      rw [runLines_of_halted hh, runLines_of_halted hh]
    | false =>
      obtain ⟨u, hu⟩ := lineAction_completes c x s
      rw [List.cons_append, runLines_cons hh hu]
      exact ih (runLines_cons hh hu ls ▸ h)

theorem core_run_succ {s t : State} (h : step s = .next t) (n : Nat) :
    Host.Core.run core (n + 1) s = Host.Core.run core n t := by
  have h' : core.step s = .next t := h
  simp only [Host.Core.run, h']

/-- Stepping to the end of the run is running the lines from `pc` on, and takes a step a line at most. -/
theorem core_run_eq_runLines (s : State) : ∃ n t, n ≤ lineCount s.prog - s.pc ∧
    Host.Core.run core n s = .next t ∧ t.runOver = true ∧
    runLines ((classified s.prog).drop s.pc) s = .next t := by
  rw [← classified_length, ← List.length_drop]
  generalize hls : (classified s.prog).drop s.pc = ls
  induction ls generalizing s with
  | nil =>
    have hover : lineCount s.prog ≤ s.pc := by
      rw [← classified_length]
      exact List.drop_eq_nil_iff.1 hls
    exact ⟨0, s, le_rfl, rfl, by simp [State.runOver, hover], rfl⟩
  | cons l ls ih =>
    obtain ⟨c, x⟩ := l
    cases hh : s.halted with
    | true => exact ⟨0, s, by simp, rfl, by simp [State.runOver, hh], runLines_of_halted hh _⟩
    | false =>
      have hf : fetchLine s = some (c, x) := by
        rw [fetchLine, ← List.head?_drop, hls, List.head?_cons]
      obtain ⟨u, hu⟩ := lineAction_completes c x s
      obtain ⟨hpc, hprog, -, -⟩ := LineFrame.of_lineAction hu
      have hstep : step s = .next (advance u) := by rw [step_of_fetchLine hh hf, hu, mapNext_next]
      have hrest : (classified (advance u).prog).drop (advance u).pc = ls := by
        rw [State.advance_prog, State.advance_pc, hpc, hprog, ← List.tail_drop, hls, List.tail_cons]
      obtain ⟨n, t, hn, hrun, hover, hlines⟩ := ih (advance u) hrest
      refine ⟨n + 1, t, Nat.succ_le_succ hn, ?_, hover, ?_⟩
      · rw [core_run_succ hstep, hrun]
      · rw [runLines_cons hh hu, hlines]

/-- Once a run is over, a step answers one of the two faults (rule R104). -/
theorem step_of_runOver {s : State} (h : s.runOver = true) : ∃ r, step s = .fault r := by
  cases hh : s.halted with
  | true => exact ⟨_, step_of_halted hh⟩
  | false => exact ⟨_, step_of_pc_past_end hh (by simpa [State.runOver, hh] using h)⟩

/-- Settles O50: running the lines that are left takes a step a line at most. -/
theorem everyRunTerminates : Obligations.EveryRunTerminates := by
  intro s
  obtain ⟨n, t, hn, hrun, hover, -⟩ := core_run_eq_runLines s
  obtain ⟨r, hr⟩ := step_of_runOver hover
  exact ⟨n, t, r, hn, hrun, hr⟩

/-! ### The lines of a unit (rules R76 to R80) -/

/-- The classified lines of an else-block with its marker. -/
def elseLines : Option (List Text) → List (LineClass × Text)
  | none => []
  | some ts => (.elseMark, elseText) :: ts.map (.elseBody, ·)

/-- The classified lines that follow the head of a Conditional Unit. -/
def groupLines (ifBlock : List Text) (elseBlock : Option (List Text)) : List (LineClass × Text) :=
  ifBlock.map (.ifBody, ·) ++ elseLines elseBlock

/-- The classified lines of a unit. -/
def unitLines : ProgUnit → List (LineClass × Text)
  | .plain x => [(.plain, x)]
  | .cond head ifBlock elseBlock => (.ifHead, head) :: groupLines ifBlock elseBlock

/-- In a mode that keeps indented lines, the indented lines that come first are the block. -/
theorem classifyFrom_block {m : SegMode} {c : LineClass}
    (hm : ∀ line, indented (stripComment line) = true → classifyLine m line = (c, m)) (lines : List Text) :
    classifyFrom m lines = (blockOf lines).map (c, ·) ++ classifyFrom m (afterBlock lines) := by
  induction lines with
  | nil => rfl
  | cons line lines ih =>
    by_cases hi : indented (stripComment line) = true
    · rw [classifyFrom, hm line hi, ih]
      simp [blockOf, afterBlock, hi]
    · simp [blockOf, afterBlock, hi]

/-- The line after a block is not indented. -/
theorem not_indented_of_afterBlock {lines rest : List Text} {line : Text}
    (h : afterBlock lines = line :: rest) : ¬ indented (stripComment line) = true := by
  have := List.head?_dropWhile_not (fun l => indented (stripComment l)) lines
  rw [← afterBlock, h] at this
  simpa using this

/-- An else-block ends at the unit level. -/
theorem classifyFrom_inElse (lines : List Text) :
    classifyFrom .inElse lines =
      (blockOf lines).map (.elseBody, ·) ++ classifyFrom .unit (afterBlock lines) := by
  rw [classifyFrom_block (m := .inElse) (c := .elseBody) fun line hi => if_pos hi]
  congr 1
  cases h : afterBlock lines with
  | nil => rfl
  | cons line rest =>
    have hi := not_indented_of_afterBlock h
    simp only [classifyFrom, classifyLine, if_neg hi]

/-- What follows a head is the group's lines, and then the lines after the group at the unit level. -/
theorem classifyFrom_inIf (lines : List Text) :
    classifyFrom .inIf lines = groupLines (blockOf lines) (elseBlockOf (afterBlock lines)) ++
      classifyFrom .unit (afterElse (afterBlock lines)) := by
  rw [classifyFrom_block (m := .inIf) (c := .ifBody) fun line hi => if_pos hi, groupLines, List.append_assoc]
  congr 1
  cases h : afterBlock lines with
  | nil => rfl
  | cons line rest =>
    have hi := not_indented_of_afterBlock h
    by_cases he : lineText line = elseText
    · simp [classifyFrom, classifyLine, hi, he, elseBlockOf, afterElse, elseLines, classifyFrom_inElse]
    · simp [classifyFrom, classifyLine, hi, he, elseBlockOf, afterElse, elseLines]

theorem afterGroup_length_le (lines : List Text) : (afterElse (afterBlock lines)).length ≤ lines.length := by
  have hblock (ls : List Text) : (afterBlock ls).length ≤ ls.length := (List.dropWhile_suffix _).length_le
  refine le_trans ?_ (hblock lines)
  cases afterBlock lines with
  | nil => exact le_rfl
  | cons line rest =>
    rw [afterElse]
    split
    · exact (hblock rest).trans (Nat.le_succ _)
    · exact le_rfl

/-! ### The block that `B` selects -/

/-- While `B` has the value `b`, running the lines has the effect of running the block `ts`, up to `pc`, and
keeps `B`. -/
def RunsAsBlock (b : BranchSel) (ls : List (LineClass × Text)) (ts : List Text) : Prop :=
  ∀ s : State, s.branch = b → ∃ t, runLines ls s = .next t ∧ t.branch = b ∧
    runBlock ts s.rewind = .next t.rewind

theorem runBlock_of_halted {s : State} (h : s.halted = true) (ts : List Text) : runBlock ts s = .next s := by
  cases ts with
  | nil => rfl
  | cons x ts => exact if_pos h

/-- Executing a line does not write `B`; only the step at the head of a unit does (rule R11). -/
theorem execute_branch {x : Text} {s t : State} (h : execute x s = .next t) : t.branch = s.branch := by
  rcases execute_eq_next h with rfl | ⟨tok, rfl⟩ | ⟨i, -, hi⟩
  · rfl
  · rfl
  · obtain ⟨-, hb, -⟩ := (Effect.of_exec hi).sequencing
    exact hb

/-- While `B` has the value `b`, the lines have no action (rules R82, R86). -/
def PassedOver (b : BranchSel) (ls : List (LineClass × Text)) : Prop :=
  ∀ l ∈ ls, ∀ s : State, s.branch = b → lineAction l.1 l.2 s = .next s

section
variable {b : BranchSel} {ls ls' : List (LineClass × Text)} {ts ts' : List Text}

theorem RunsAsBlock.nil (b : BranchSel) : RunsAsBlock b [] [] := fun s hb => ⟨s, rfl, hb, rfl⟩

/-- A line that is passed over adds nothing to the block. -/
theorem RunsAsBlock.cons_passed {c : LineClass} {x : Text}
    (hc : ∀ s : State, s.branch = b → lineAction c x s = .next s) (h : RunsAsBlock b ls ts) :
    RunsAsBlock b ((c, x) :: ls) ts := by
  intro s hb
  cases hh : s.halted with
  | true => exact ⟨s, runLines_of_halted hh _, hb, runBlock_of_halted (s := s.rewind) hh _⟩
  | false =>
    rw [runLines_cons hh (hc s hb)]
    exact h (advance s) hb

/-- A line that is executed is the next line of the block. -/
theorem RunsAsBlock.cons_executed {c : LineClass} {x : Text}
    (hc : ∀ s : State, s.branch = b → lineAction c x s = execute x s) (h : RunsAsBlock b ls ts) :
    RunsAsBlock b ((c, x) :: ls) (x :: ts) := by
  intro s hb
  cases hh : s.halted with
  | true => exact ⟨s, runLines_of_halted hh _, hb, runBlock_of_halted (s := s.rewind) hh _⟩
  | false =>
    obtain ⟨u, hu⟩ := execute_completes x s
    rw [runLines_cons hh ((hc s hb).trans hu), runBlock, if_neg (by simp [hh]), execute_rewind hu]
    exact h (advance u) ((execute_branch hu).trans hb)

/-- Lines that are passed over add nothing to the block. -/
theorem RunsAsBlock.append_passed (hls : PassedOver b ls) (h : RunsAsBlock b ls' ts) :
    RunsAsBlock b (ls ++ ls') ts := by
  induction ls with
  | nil => exact h
  | cons l ls ih =>
    obtain ⟨hl, hls⟩ := List.forall_mem_cons.1 hls
    exact (ih hls).cons_passed hl

/-- The lines of a class that `B` selects are the block. -/
theorem RunsAsBlock.append_executed {c : LineClass}
    (hc : ∀ (x : Text) (s : State), s.branch = b → lineAction c x s = execute x s) (ts : List Text)
    (h : RunsAsBlock b ls ts') : RunsAsBlock b (ts.map (c, ·) ++ ls) (ts ++ ts') := by
  induction ts with
  | nil => exact h
  | cons x ts ih => exact ih.cons_executed (hc x)

end

/-- The lines of a block that `B` does not select are passed over. -/
theorem passedOver_ifBlock {b : BranchSel} (hb : b ≠ .takeIf) (ts : List Text) :
    PassedOver b (ts.map (.ifBody, ·)) :=
  List.forall_mem_map.2 fun _ _ _ hs => if_neg (hs ▸ hb)

theorem passedOver_elseLines {b : BranchSel} (hb : b ≠ .takeElse) (elseBlock : Option (List Text)) :
    PassedOver b (elseLines elseBlock) := by
  cases elseBlock with
  | none => exact fun _ hl => absurd hl List.not_mem_nil
  | some ts =>
    exact List.forall_mem_cons.2
      ⟨fun _ _ => rfl, List.forall_mem_map.2 fun _ _ _ hs => if_neg (hs ▸ hb)⟩

/-- The lines after a head run as the block that `B` selects (rules R82, R86). -/
theorem runsAsBlock_groupLines (b : BranchSel) (ifBlock : List Text) (elseBlock : Option (List Text)) :
    RunsAsBlock b (groupLines ifBlock elseBlock) (selectedBlock b ifBlock elseBlock) := by
  have helse (hb : b ≠ .takeElse) : RunsAsBlock b (elseLines elseBlock) [] := by
    simpa using (RunsAsBlock.nil b).append_passed (passedOver_elseLines hb elseBlock)
  cases b with
  | takeIf =>
    have hif := (helse (by decide)).append_executed (c := .ifBody) (fun _ _ hs => if_pos hs) ifBlock
    simpa [selectedBlock, groupLines] using hif
  | takeElse =>
    refine .append_passed (passedOver_ifBlock (by decide) ifBlock) ?_
    cases elseBlock with
    | none => exact .nil _
    | some ts =>
      refine .cons_passed (fun _ _ => rfl) ?_
      have hts := (RunsAsBlock.nil .takeElse).append_executed (c := .elseBody) (fun _ _ hs => if_pos hs) ts
      simpa [selectedBlock] using hts
  | takeNone => exact (helse (by decide)).append_passed (passedOver_ifBlock (by decide) ifBlock)

/-! ### Lines against units -/

theorem runUnits_of_halted {s : State} (h : s.halted = true) (us : List ProgUnit) : runUnits us s = .next s := by
  cases us with
  | nil => rfl
  | cons u us => exact if_pos h

/-- The lines of a unit have the unit's effect, up to `pc` and `B` (rules R81, R82, R86). -/
theorem runLines_unitLines (u : ProgUnit) {s : State} (hh : s.halted = false) :
    ∃ t, runLines (unitLines u) s = .next t ∧ runUnit u s.rewind = .next t.rewind := by
  cases u with
  | plain x =>
    obtain ⟨v, hv⟩ := execute_completes x s
    refine ⟨advance v, runLines_cons (c := .plain) hh hv [], ?_⟩
    rw [runUnit, execute_rewind hv, State.advance_rewind]
  | cond head ifBlock elseBlock =>
    obtain ⟨v, hv⟩ := execute_completes head s
    have hhead : lineAction .ifHead head s = .next (selectBranch head v) := by rw [lineAction, hv, mapNext_next]
    obtain ⟨t, hlines, -, hblock⟩ :=
      runsAsBlock_groupLines _ ifBlock elseBlock (advance (selectBranch head v)) rfl
    refine ⟨t, (runLines_cons hh hhead _).trans hlines, ?_⟩
    rw [runUnit, execute_rewind hv, andThen_next, evalCond_of_sameStorage v.sameStorage_rewind]
    exact hblock

/-- Running the lines has the effect of running the units, up to `pc` and `B`. -/
def RunsAsUnits (ls : List (LineClass × Text)) (us : List ProgUnit) : Prop :=
  ∀ s : State, ∃ t, runLines ls s = .next t ∧ runUnits us s.rewind = .next t.rewind

section
variable {ls : List (LineClass × Text)} {us : List ProgUnit}

/-- A skipped line is part of no unit (rule R76). -/
theorem RunsAsUnits.cons_skip (h : RunsAsUnits ls us) (x : Text) : RunsAsUnits ((.skip, x) :: ls) us := by
  intro s
  cases hh : s.halted with
  | true => exact ⟨s, runLines_of_halted hh _, runUnits_of_halted (s := s.rewind) hh _⟩
  | false =>
    rw [runLines_cons (c := .skip) hh rfl]
    exact h (advance s)

theorem RunsAsUnits.cons_unit (h : RunsAsUnits ls us) (u : ProgUnit) :
    RunsAsUnits (unitLines u ++ ls) (u :: us) := by
  intro s
  cases hh : s.halted with
  | true => exact ⟨s, runLines_of_halted hh _, runUnits_of_halted (s := s.rewind) hh _⟩
  | false =>
    obtain ⟨t, hlines, hunit⟩ := runLines_unitLines u hh
    rw [runLines_append hlines, runUnits, if_neg (by simp [hh]), hunit, andThen_next]
    exact h t

end

/-- The Segmenter's units are those the line classes form, whatever bound on the rounds is enough. -/
theorem runsAsUnits_segmentAux {n : Nat} {lines : List Text} (hn : lines.length ≤ n) :
    RunsAsUnits (classifyFrom .unit lines) (segmentAux n lines) := by
  induction n generalizing lines with
  | zero =>
    obtain rfl := List.length_eq_zero_iff.1 (Nat.le_zero.1 hn)
    exact fun s => ⟨s, rfl, rfl⟩
  | succ n ih =>
    cases lines with
    | nil => exact fun s => ⟨s, rfl, rfl⟩
    | cons line lines =>
      have hlines : lines.length ≤ n := Nat.le_of_succ_le_succ hn
      rw [classifyFrom, segmentAux, classifyLine, classifyUnit]
      split_ifs
      · exact (ih hlines).cons_skip _
      · rw [classifyFrom_inIf]
        exact (ih ((afterGroup_length_le lines).trans hlines)).cons_unit (.cond ..)
      · exact (ih hlines).cons_unit (.plain _)

/-- Settles O49: the steps run the program's lines, the lines run as the units, and run start leaves nothing to
rewind. -/
theorem lineFormRunsTheUnits : Obligations.LineFormRunsTheUnits := by
  intro s
  obtain ⟨n, t, hn, hrun, hover, hlines⟩ := core_run_eq_runLines s.start
  obtain ⟨u, hlines', hunits⟩ := runsAsUnits_segmentAux (le_refl (splitLines s.prog).length) s.start
  obtain rfl : t = u := by
    rw [State.start_pc, List.drop_zero] at hlines
    exact Host.Outcome.next.inj (hlines.symm.trans hlines')
  refine ⟨n, t, t.rewind, hn, hrun, hover, ?_, fun l => ?_, rfl, rfl, rfl⟩
  · rw [State.rewind_start] at hunits
    exact hunits
  · exact (t.sameStorage_rewind l).symm

/-! ### The comparison of a condition (rule R74) -/

/-- A condition whose sides have values is their comparison. -/
theorem evalCond_of_values {l r : Operand} {pre post : List Ws} {op : CmpOp} {s : State} {a b : Byte}
    (hl : resolve l s = .ok a) (hr : resolve r s = .ok b) :
    evalCond (.cmp l pre op post r) s = evaluateCondition a op.text b := by
  simp only [evalCond, hl, hr]

/-- The comparison of an operator always has a result. -/
theorem evaluateCondition_text (a : Byte) (op : CmpOp) (b : Byte) :
    ∃ result, evaluateCondition a op.text b = .ok result := by
  cases op <;> exact ⟨_, rfl⟩

/-- A text that is none of the six operators is an Invalid Operator. -/
theorem evaluateCondition_of_other {op : Text} (h : ∀ o ∈ CmpOp.searchOrder, op ≠ o.text) (a b : Byte) :
    evaluateCondition a op b = .error (.invalidOperator op) := by
  have hne (o : CmpOp) : op ≠ o.text := h o (by cases o <;> decide)
  exact (if_neg (hne .eq)).trans <| (if_neg (hne .ne)).trans <| (if_neg (hne .gt)).trans <|
    (if_neg (hne .lt)).trans <| (if_neg (hne .ge)).trans <| if_neg (hne .le)

/-- Settles O27: the six comparisons are the definition, and a condition is its cut with the sides resolved in
order. -/
theorem conditionsCompareUnsigned : Obligations.ConditionsCompareUnsigned := by
  refine ⟨fun a b => ⟨rfl, rfl, rfl, rfl, rfl, rfl, fun op h => evaluateCondition_of_other h a b⟩,
    fun c s => ⟨fun h => ?_, fun l op r h => ?_⟩⟩
  · rw [parseCondForm_of_no_cut (parseCondition_eq_none.1 h)]
    rfl
  · obtain ⟨l', r', hcut, rfl, rfl⟩ := parseCondition_eq_some.1 h
    rw [parseCondForm_of_cut hcut]
    exact ⟨fun e => evalCond_of_left_error,
      fun a ha => ⟨fun e => evalCond_of_right_error ha, fun b => evalCond_of_values ha⟩⟩

/-- Settles O28: the rule of `IF` only adds its diagnostic. -/
theorem ifOnlyLogsItsResult : Obligations.IfOnlyLogsItsResult := by
  intro l r pre post op s a b hl hr
  obtain ⟨result, hresult⟩ := evaluateCondition_text a op b
  have hcond := (evalCond_of_values (pre := pre) (post := post) hl hr).trans hresult
  refine ⟨_, result, hresult, exec_of_instrRule_ok (ifRule_eq_ok.2 ⟨result, hcond, rfl⟩),
    s.readLoc_diag _, s.diag_verbose _, by simp [SameSequencing], ?_⟩
  rw [State.diag_log]
  cases result <;> rfl

/-! ### The lines of a Conditional Unit -/

/-- A classified line is a line of the program. -/
theorem exists_line_of_classified {p x : Text} {k : Nat} {c : LineClass}
    (h : (classified p)[k]? = some (c, x)) : ∃ line, (splitLines p)[k]? = some line := by
  obtain ⟨hk, -⟩ := List.getElem?_eq_some_iff.1 h
  rw [classified_length] at hk
  exact ⟨_, List.getElem?_eq_getElem hk⟩

/-- Settles O45, from the classification of lines by the line before them. -/
theorem blockLinesFollowTheirHead : Obligations.BlockLinesFollowTheirHead := by
  intro p k c x h
  obtain ⟨line, hline⟩ := exists_line_of_classified h
  obtain ⟨c', hc', hifBody, helseBody, helseMark, -⟩ := (linesAreClassifiedByTheirText p).2 k line hline
  obtain ⟨rfl, -⟩ := Prod.mk.inj (Option.some.inj (hc'.symm.trans h))
  refine ⟨?_, fun hc => (helseBody.1 hc).1⟩
  rintro (hc | hc)
  · exact (hifBody.1 hc).1
  · exact (helseMark.1 hc).1

/-- The head of a Conditional Unit decodes to an `IF` (rules R39, R78). -/
theorem decodeLine_of_ifHead {p x : Text} {k : Nat} (h : (classified p)[k]? = some (.ifHead, x)) :
    decodeLine x = .instr (.ifc (parseCondForm (restOf x))) := by
  obtain ⟨line, hline⟩ := exists_line_of_classified h
  obtain ⟨c', hc', -, -, -, hunit⟩ := (linesAreClassifiedByTheirText p).2 k line hline
  obtain ⟨rfl, rfl⟩ := Prod.mk.inj (Option.some.inj (hc'.symm.trans h))
  obtain ⟨-, hhead, -⟩ := hunit (by decide)
  exact decodeLine_of_token0 ((token0_eq_if_iff _).2 (hhead.1 rfl))

/-- Settles O44: the head runs as an `IF`, which keeps the storage, so its condition has the same value on the
state after it. -/
theorem unitHeadsSelectTheBlock : Obligations.UnitHeadsSelectTheBlock := by
  intro s x hh hf
  have hdecode := decodeLine_of_ifHead hf
  obtain ⟨u, hu⟩ := exec_completes (.ifc (parseCondForm (restOf x))) s
  have heffect := Effect.of_exec hu
  have hstorage : SameStorage s u := fun l => heffect.readLoc fun d hd => absurd hd List.not_mem_nil
  have hstep : step s = .next (advance (selectBranch x u)) := by
    rw [step_of_fetchLine hh hf, lineAction, execute_of_instr hdecode, hu, mapNext_next, mapNext_next]
  have hbranch : (advance (selectBranch x u)).branch = branchOf (evalCond (parseCondForm (restOf x)) s) := by
    rw [← evalCond_of_sameStorage hstorage]
    rfl
  refine ⟨_, _, hdecode, hstep, fun h => ?_, fun h => ?_, fun e h => ⟨?_, ?_⟩, hstorage,
    heffect.verbose nofun, heffect.halted nofun, ?_⟩
  · rw [hbranch, h, branchOf]
  · rw [hbranch, h, branchOf]
  · rw [hbranch, h, branchOf]
  · obtain rfl : takeError e s = u := Host.Outcome.next.inj ((exec_ifc_of_error h).symm.trans hu)
    rfl
  · exact congrArg (· + 1) heffect.sequencing.1

/-- Settles O43: the action of such a line is to do nothing. -/
theorem passedOverLinesOnlyAdvancePc : Obligations.PassedOverLinesOnlyAdvancePc := by
  intro s x hh
  have hpassed {c : LineClass} (hf : fetchLine s = some (c, x)) (ha : lineAction c x s = .next s) :
      step s = .next (advance s) := by
    rw [step_of_fetchLine hh hf, ha, mapNext_next]
  exact ⟨fun hf => hpassed hf rfl, fun hf => hpassed hf rfl, fun hf hb => hpassed hf (if_neg hb),
    fun hf hb => hpassed hf (if_neg hb)⟩

/-! ### The halt latch (rule R84) -/

/-- A halted machine runs no further step. -/
theorem core_run_of_halted {s : State} (h : s.halted = true) (n : Nat) :
    Host.Core.run core (n + 1) s = .fault .halted := by
  have hstep : core.step s = .fault .halted := step_of_halted h
  simp only [Host.Core.run, hstep]

/-- Settles O51: `HALT` of the value 1 sets the latch, every run loop asks for it first, and only `HALT` writes
it. -/
theorem haltStopsEverything : Obligations.HaltStopsEverything := by
  refine ⟨fun x s t hx h => ?_, fun s h => ⟨runUnits_of_halted h, runBlock_of_halted h, fun n t hrun => ?_⟩,
    fun f s t h => (Effect.of_exec h).halted nofun⟩
  · obtain ⟨u, hu, hhalted, -⟩ := haltSetsTheLatchOnOne x s _ hx
    obtain rfl : u = t := Host.Outcome.next.inj (hu.symm.trans h)
    simp [hhalted]
  · rw [core_run_of_halted h] at hrun
    cases hrun

end Sys2Proof.Machine

/-! SUPPORT. The exceptions family: how a rule can raise an error, said once as `RuleError`; the lines an instruction
that raises none adds, said once as `AddsLines`; and the statements about errors that follow from them. -/

namespace Sys2Proof.Machine

/-! ### The errors of the phases of an instruction -/

section
variable {s : State} {e : MachineError}

/-- An operand raises an error only where it is ill-formed, and only one of an operand text (rule R47). -/
theorem not_wf_of_resolve_error {x : Operand} (h : resolve x s = .error e) : x.wf = false ∧ IsOperandError e := by
  cases hx : x.wf with
  | true =>
    obtain ⟨v, hv⟩ := resolve_of_wf hx s
    cases hv.symm.trans h
  | false =>
    obtain ⟨e', he', herr⟩ := resolve_of_not_wf hx
    cases (herr s).symm.trans h
    exact ⟨rfl, he'⟩

/-- A written operand raises an error only where it is no well-formed written operand (rule R48). -/
theorem not_wfDest_of_loc_error {d : Operand} (h : loc d s = .error e) : d.wfDest = false ∧ IsOperandError e := by
  cases hd : d.wfDest with
  | true =>
    obtain ⟨l, hl⟩ := loc_of_wfDest hd s
    cases hl.symm.trans h
  | false =>
    obtain ⟨e', he', herr⟩ := loc_of_not_wfDest hd
    cases (herr s).symm.trans h
    exact ⟨rfl, he'⟩

/-- A located phase fails with its operand or with what follows. -/
theorem withLoc_eq_error {d : Operand} {k : Location → Except MachineError State} :
    withLoc d s k = .error e ↔ loc d s = .error e ∨ ∃ l, loc d s = .ok l ∧ k l = .error e := by
  cases h : loc d s <;> simp [withLoc, h]

/-- A valued phase fails with its operand or with what follows. -/
theorem withValue_eq_error {x : Operand} {k : Byte → Except MachineError State} :
    withValue x s k = .error e ↔ resolve x s = .error e ∨ ∃ v, resolve x s = .ok v ∧ k v = .error e := by
  cases h : resolve x s <;> simp [withValue, h]

/-- A rule that cuts its form, locates its destination, resolves its source and goes on with `k` raises an error of
an ill-formed form, or `k`'s (rules R38, R97). -/
theorem pairPhases_error {f : PairForm} {k : Operand → Operand → Location → Byte → Except MachineError State}
    (h : withPair f (fun d x => withLoc d s fun l => withValue x s fun v => k d x l v) = .error e) :
    (f.wf = false ∧ IsOperandError e) ∨
      ∃ d x l v, f = .pair d x ∧ resolve x s = .ok v ∧ k d x l v = .error e := by
  cases f with
  | noSep rest =>
    cases h
    exact .inl ⟨rfl, .malformedOperand rest⟩
  | pair d x =>
    rcases withLoc_eq_error.1 h with hd | ⟨l, -, h⟩
    · obtain ⟨hwf, he⟩ := not_wfDest_of_loc_error hd
      exact .inl ⟨by simp [PairForm.wf, hwf], he⟩
    rcases withValue_eq_error.1 h with hx | ⟨v, hv, hk⟩
    · obtain ⟨hwf, he⟩ := not_wf_of_resolve_error hx
      exact .inl ⟨by simp [PairForm.wf, hwf], he⟩
    · exact .inr ⟨d, x, l, v, rfl, hv, hk⟩

/-- A move raises no error of its own (rules R56, R57). -/
theorem moveRule_error {mnemonic : Text} {f : PairForm} (h : moveRule mnemonic f s = .error e) :
    f.wf = false ∧ IsOperandError e := by
  rcases pairPhases_error h with hf | ⟨d, x, l, v, -, -, hk⟩
  · exact hf
  · cases hk

/-- `QMOV` raises no error of its own (rule R58). -/
theorem qmovRule_error {f : PairForm} (h : qmovRule f s = .error e) : f.wfLocs = false ∧ IsOperandError e := by
  cases f with
  | noSep rest =>
    cases h
    exact ⟨rfl, .malformedOperand rest⟩
  | pair d x =>
    rcases withLoc_eq_error.1 h with hd | ⟨l, -, h⟩
    · obtain ⟨hwf, he⟩ := not_wfDest_of_loc_error hd
      exact ⟨by simp [PairForm.wfLocs, hwf], he⟩
    rcases withLoc_eq_error.1 h with hx | ⟨m, -, hm⟩
    · obtain ⟨hwf, he⟩ := not_wfDest_of_loc_error hx
      exact ⟨by simp [PairForm.wfLocs, hwf], he⟩
    · cases hm

/-- An arithmetic instruction raises an error of its form, or its operation's (rule R61). -/
theorem aluRule_error {mnemonic : Text} {op : Byte → Byte → Except MachineError Byte} {f : PairForm}
    (h : aluRule mnemonic op f s = .error e) :
    (f.wf = false ∧ IsOperandError e) ∨
      ∃ d x a b, f = .pair d x ∧ resolve x s = .ok b ∧ op a b = .error e := by
  rcases pairPhases_error h with hf | ⟨d, x, l, b, hf, hx, hk⟩
  · exact .inl hf
  · refine .inr ⟨d, x, s.readLoc l, b, hf, hx, ?_⟩
    cases hop : op (s.readLoc l) b with
    | ok r => simp [hop] at hk
    | error e' => simpa [hop] using hk

/-- An arithmetic instruction whose operation always has a result raises only an error of its form. -/
theorem aluRule_error_of_total {mnemonic : Text} {op : Byte → Byte → Except MachineError Byte} {f : PairForm}
    (hop : ∀ a b, ∃ r, op a b = .ok r) (h : aluRule mnemonic op f s = .error e) :
    f.wf = false ∧ IsOperandError e := by
  rcases aluRule_error h with hf | ⟨d, x, a, b, -, -, hb⟩
  · exact hf
  · obtain ⟨r, hr⟩ := hop a b
    cases hr.symm.trans hb

/-- The quotient fails on the divisor 0 alone (rules R65, R94). -/
theorem divOp_eq_error {a b : Byte} : divOp a b = .error e ↔ b = 0#8 ∧ e = .divisionByZero := by
  by_cases hb : b = 0#8
  · subst hb
    simp [divOp, eq_comm]
  · simp [divOp_eq a hb, hb]

/-- A condition raises an error where it has no operator or an ill-formed side; a comparison raises none (rules R73,
R74). -/
theorem evalCond_error {f : CondForm} (h : evalCond f s = .error e) :
    (∃ c, f = .noOp c ∧ e = .invalidCondition c) ∨ (f.wf = false ∧ IsOperandError e) := by
  cases f with
  | noOp c =>
    cases h
    exact .inl ⟨c, rfl, rfl⟩
  | cmp l pre op post r =>
    refine .inr ?_
    cases hl : resolve l s with
    | error e' =>
      cases (evalCond_of_left_error hl).symm.trans h
      obtain ⟨hwf, he⟩ := not_wf_of_resolve_error hl
      exact ⟨by simp [CondForm.wf, hwf], he⟩
    | ok a =>
      cases hr : resolve r s with
      | error e' =>
        cases (evalCond_of_right_error hl hr).symm.trans h
        obtain ⟨hwf, he⟩ := not_wf_of_resolve_error hr
        exact ⟨by simp [CondForm.wf, hwf], he⟩
      | ok b =>
        obtain ⟨result, hresult⟩ := evaluateCondition_text a op b
        cases ((evalCond_of_values hl hr).trans hresult).symm.trans h

/-- `IF` fails with its condition alone (rule R75). -/
theorem ifRule_eq_error {f : CondForm} : ifRule f s = .error e ↔ evalCond f s = .error e := by
  unfold ifRule
  cases evalCond f s <;> simp

end

/-! ### How a rule can raise an error -/

/-- The errors an instruction can raise: that of an ill-formed operand or a missing separator, that of a condition
without an operator, and that of `DIV` by 0 (rules R89 to R94). -/
inductive RuleError : Instr → State → MachineError → Prop where
  | operand {i s e} (hi : i.wf = false) (he : IsOperandError e) : RuleError i s e
  | condition {s} (c : Text) : RuleError (.ifc (.noOp c)) s (.invalidCondition c)
  | division {d x : Operand} {s} (hx : resolve x s = .ok 0#8) : RuleError (.div (.pair d x)) s .divisionByZero

/-- A value operand followed by nothing that fails raises only its own error. -/
theorem RuleError.of_withValue {i : Instr} {s : State} {e : MachineError} {x : Operand} {k : Byte → State}
    (hi : x.wf = false → i.wf = false) (h : withValue x s (fun v => .ok (k v)) = .error e) : RuleError i s e := by
  rcases withValue_eq_error.1 h with hx | ⟨v, -, hv⟩
  · obtain ⟨hwf, he⟩ := not_wf_of_resolve_error hx
    exact .operand (hi hwf) he
  · cases hv

/-- A rule that fails raises one of the errors. -/
theorem RuleError.of_instrRule {i : Instr} {s : State} {e : MachineError} (h : instrRule i s = .error e) :
    RuleError i s e := by
  have hform {f : PairForm} (hi : f.wf = i.wf) : f.wf = false ∧ IsOperandError e → RuleError i s e :=
    fun ⟨hf, he⟩ => .operand (hi ▸ hf) he
  cases i with
  | ver f =>
    cases f with
    | noEq rest =>
      cases h
      exact .operand rfl (.malformedOperand rest)
    | eq x => exact .of_withValue id h
  | init f => exact hform rfl (moveRule_error h)
  | mov f => exact hform rfl (moveRule_error h)
  | qmov f =>
    obtain ⟨hf, he⟩ := qmovRule_error h
    exact .operand hf he
  | add f => exact hform rfl (aluRule_error_of_total (op := addOp) (fun _ _ => ⟨_, addOp_eq ..⟩) h)
  | sub f => exact hform rfl (aluRule_error_of_total (op := subOp) (fun _ _ => ⟨_, subOp_eq ..⟩) h)
  | mul f => exact hform rfl (aluRule_error_of_total (op := mulOp) (fun _ _ => ⟨_, mulOp_eq ..⟩) h)
  | div f =>
    rcases aluRule_error (op := divOp) h with hf | ⟨d, x, a, b, rfl, hx, hb⟩
    · exact hform rfl hf
    · obtain ⟨rfl, rfl⟩ := divOp_eq_error.1 hb
      exact .division hx
  | out x => exact .of_withValue id h
  | ifc f =>
    rcases evalCond_error (ifRule_eq_error.1 h) with ⟨c, rfl, rfl⟩ | ⟨hf, he⟩
    · exact .condition c
    · exact .operand hf he
  | clr x =>
    rcases withLoc_eq_error.1 h with hx | ⟨l, -, hl⟩
    · obtain ⟨hwf, he⟩ := not_wfDest_of_loc_error hx
      exact .operand hwf he
    · cases hl
  | halt x => exact .of_withValue id h

/-- An error other than Division By Zero comes from an ill-formed instruction. -/
theorem RuleError.not_wf {i : Instr} {s : State} {e : MachineError} (h : RuleError i s e)
    (he : e ≠ .divisionByZero) : i.wf = false := by
  cases h with
  | operand hi _ => exact hi
  | condition c => rfl
  | division _ => exact absurd rfl he

/-! ### The lines an instruction that raises no error adds -/

/-- `LOG` grows at its end, by lines that begin with a text. -/
def AddsLines (p : Text) (s t : State) : Prop :=
  ∃ added : List Text, t.log = s.log ++ added ∧ ∀ line ∈ added, p <+: line

section
variable {p line : Text} {s t : State}

theorem AddsLines.of_log_eq (h : t.log = s.log) : AddsLines p s t := ⟨[], by simp [h], by simp⟩

theorem AddsLines.emit (h : AddsLines p s t) (hp : p <+: line) : AddsLines p s (t.emit line) := by
  obtain ⟨added, hlog, hadded⟩ := h
  refine ⟨added ++ [line], by simp [hlog], fun l hl => ?_⟩
  rcases List.mem_append.1 hl with hl | hl
  · exact hadded l hl
  · rwa [List.mem_singleton.1 hl]

theorem AddsLines.diag (h : AddsLines p s t) (hp : p <+: line) : AddsLines p s (t.diag line) := by
  unfold State.diag
  split
  · exact h.emit hp
  · exact h

/-- A write to a location adds no line (rule R48). -/
theorem AddsLines.of_writeLoc (v : Byte) (l : Location) : AddsLines p s (s.writeLoc v l) :=
  .of_log_eq (s.writeLoc_log v l)

theorem mnemonic_prefix_resultLine (mnemonic dest : Text) (v : Byte) : mnemonic <+: resultLine mnemonic dest v := by
  simp [resultLine]

theorem AddsLines.of_moveRule {mnemonic : Text} {f : PairForm} (h : moveRule mnemonic f s = .ok t) :
    AddsLines mnemonic s t := by
  obtain ⟨d, x, l, v, -, -, -, rfl⟩ := moveRule_eq_ok.1 h
  exact .diag (.of_writeLoc v l) (mnemonic_prefix_resultLine ..)

theorem AddsLines.of_aluRule {mnemonic : Text} {op : Byte → Byte → Except MachineError Byte} {f : PairForm}
    (h : aluRule mnemonic op f s = .ok t) : AddsLines mnemonic s t := by
  obtain ⟨d, x, l, b, r, -, -, -, -, rfl⟩ := aluRule_eq_ok.1 h
  exact .diag (.of_writeLoc r l) (mnemonic_prefix_resultLine ..)

/-- The lines of an instruction that raises no error begin with its mnemonic (rules R68, R71). -/
theorem AddsLines.of_instrRule {i : Instr} (h : instrRule i s = .ok t) : AddsLines i.opcode.mnemonic s t := by
  cases i with
  | ver f =>
    obtain ⟨x, v, -, -, rfl⟩ := verRule_eq_ok.1 h
    exact .diag (.of_log_eq rfl) ⟨_, rfl⟩
  | init f => exact .of_moveRule h
  | mov f => exact .of_moveRule h
  | qmov f =>
    obtain ⟨d, x, l, m, -, -, -, rfl⟩ := qmovRule_eq_ok.1 h
    exact .diag (.diag (.of_log_eq (by simp)) (mnemonic_prefix_resultLine ..)) (mnemonic_prefix_resultLine ..)
  | add f => exact .of_aluRule (op := addOp) h
  | sub f => exact .of_aluRule (op := subOp) h
  | mul f => exact .of_aluRule (op := mulOp) h
  | div f => exact .of_aluRule (op := divOp) h
  | out x =>
    obtain ⟨v, -, hv⟩ := withValue_eq_ok.1 h
    cases hv
    exact .emit (.of_log_eq rfl) ⟨_, rfl⟩
  | ifc f =>
    obtain ⟨b, -, rfl⟩ := ifRule_eq_ok.1 h
    exact .diag (.of_log_eq rfl) ⟨_, rfl⟩
  | clr x =>
    obtain ⟨l, -, hw⟩ := withLoc_eq_ok.1 h
    cases hw
    exact .of_writeLoc 0#8 l
  | halt x =>
    obtain ⟨v, -, rfl⟩ := haltRule_eq_ok.1 h
    refine .diag (.of_log_eq ?_) ⟨_, rfl⟩
    split <;> rfl

end

/-! ### Error lines are told apart from every other line -/

/-- No mnemonic begins with the letter `E`. -/
theorem head?_mnemonic_ne (o : Opcode) : o.mnemonic.head? ≠ some 0x45#8 := by cases o <;> decide

/-- No line that begins with a mnemonic begins with `Error: `. -/
theorem not_mnemonic_prefix_error (o : Opcode) (m : Text) : ¬ o.mnemonic <+: ofString "Error: " ++ m := by
  intro h
  obtain ⟨b, hb⟩ := Option.ne_none_iff_exists'.1 (mt List.head?_eq_none_iff.1 o.mnemonic_ne_nil)
  exact head?_mnemonic_ne o (hb.trans (head?_of_prefix h hb).symm)

/-- An instruction that raises no error adds no line that begins with `Error: `. -/
theorem error_not_mem_added {i : Instr} {s t : State} (h : instrRule i s = .ok t) (m : Text) :
    ofString "Error: " ++ m ∉ t.log.drop s.log.length := by
  obtain ⟨added, hlog, hadded⟩ := AddsLines.of_instrRule h
  rw [hlog, List.drop_left]
  exact fun hm => not_mnemonic_prefix_error _ m (hadded _ hm)

/-- Taking an error adds its line and no other (rule R95). -/
theorem takeError_added (e : MachineError) (s : State) : (takeError e s).log.drop s.log.length = [e.line] :=
  List.drop_left

/-- The state after an error tells which error was taken. -/
theorem takeError_injective {e e' : MachineError} {s : State} (h : takeError e s = takeError e' s) : e = e' := by
  have hlines : [e.line] = [e'.line] := by rw [← takeError_added e s, h, takeError_added]
  exact MachineError.line_injective (List.singleton_inj.1 hlines)

/-- An instruction takes an error exactly where its rule raises it. -/
theorem exec_eq_takeError_iff {i : Instr} {s : State} {e : MachineError} :
    exec i s = .next (takeError e s) ↔ instrRule i s = .error e := by
  refine ⟨fun h => ?_, exec_of_instrRule_error⟩
  rw [exec_eq_attempt] at h
  rcases attempt_eq_next.1 h with hok | ⟨e', herr, htake⟩
  · refine absurd ?_ (error_not_mem_added hok e.message)
    rw [takeError_added]
    exact List.mem_singleton.2 rfl
  · rw [herr, takeError_injective htake]

/-- A line takes an error only as the Unknown Instruction error, or as its instruction's (rules R49, R95). -/
theorem error_of_execute {x : Text} {s : State} {e : MachineError} (h : execute x s = .next (takeError e s)) :
    (∃ tok, e = .unknownInstruction tok) ∨ ∃ i, RuleError i s e := by
  rcases execute_eq_next h with hs | ⟨tok, htok⟩ | ⟨i, -, hi⟩
  · have hadded := takeError_added e s
    rw [hs, List.drop_length] at hadded
    cases hadded
  · exact .inl ⟨tok, takeError_injective htok⟩
  · exact .inr ⟨i, .of_instrRule (exec_eq_takeError_iff.1 hi)⟩

/-! ### The obligations -/

/-- Settles O30: the line decodes to an unknown instruction, which takes its error. -/
theorem unknownInstructionsOnlyLog : Obligations.UnknownInstructionsOnlyLog := by
  intro t s ht htok
  refine ⟨takeError (.unknownInstruction (token0 t)) s, ?_, afterError_takeError _ s, rfl⟩
  rw [execute, decodeLine_unknown ht htok]

/-- Settles O35: the errors a rule can raise are `RuleError`, and those of an ill-formed instruction are the same in
every state. -/
theorem onlyDivisionByZeroDependsOnTheState : Obligations.OnlyDivisionByZeroDependsOnTheState := by
  refine ⟨fun d x s l hl hx => ⟨_, exec_of_instrRule_error ?_, afterError_takeError _ s⟩, fun i s h => ?_,
    fun i s e he h s' => ?_⟩
  · have hop : divOp (s.readLoc l) 0#8 = .error .divisionByZero := rfl
    rw [instrRule, aluRule, withPair_pair, withLoc_of_ok hl, withValue_of_ok hx, hop]
  · cases RuleError.of_instrRule (exec_eq_takeError_iff.1 h) with
    | operand _ he => exact absurd rfl he.ne_divisionByZero
    | division hx => exact ⟨_, _, rfl, hx⟩
  · have hwf : i.wf = false := (RuleError.of_instrRule (exec_eq_takeError_iff.1 h)).not_wf he
    obtain ⟨e', -, hall⟩ := exec_of_not_wf hwf
    obtain rfl : e = e' := takeError_injective (Host.Outcome.next.inj (h.symm.trans (hall s)))
    exact hall s'

/-- Settles O36: Invalid Operator is none of the errors a line can take. -/
theorem invalidOperatorIsNeverRaised : Obligations.InvalidOperatorIsNeverRaised := by
  refine ⟨fun a b op h => evaluateCondition_of_other h a b, fun t op s h => ?_⟩
  rcases error_of_execute h with ⟨tok, htok⟩ | ⟨i, hi⟩
  · cases htok
  · cases hi with
    | operand _ he => cases he

/-- Settles O37: only taking an error adds a line that begins with `Error: `, and it changes nothing else. -/
theorem failedLinesChangeOnlyTheLog : Obligations.FailedLinesChangeOnlyTheLog := by
  intro x m s t h hm
  have htaken (e : MachineError) (ht : t = takeError e s) :
      t = { s with log := s.log ++ [ofString "Error: " ++ m] } := by
    rw [ht, takeError_added] at hm
    rw [ht, List.mem_singleton.1 hm]
    rfl
  rcases execute_eq_next h with rfl | ⟨tok, ht⟩ | ⟨i, -, hi⟩
  · simp at hm
  · exact htaken _ ht
  · rw [exec_eq_attempt] at hi
    rcases attempt_eq_next.1 hi with hok | ⟨e, -, ht⟩
    · exact absurd hm (error_not_mem_added hok m)
    · exact htaken e ht

end Sys2Proof.Machine

/-! SUPPORT. The host's reading family: the length and the entries of the register view and of the memory view. -/

namespace Sys2Proof.Machine

/-! ### The register view (rule R106) -/

@[simp] theorem State.registersView_length (s : State) : s.registersView.length = 8 := by
  rw [State.registersView, Vector.length_toList]

theorem State.registersView_getElem? (s : State) (i : Fin 8) : s.registersView[i.val]? = some (s.readReg i) := by
  rw [State.registersView, Vector.getElem?_toList, Vector.getElem?_eq_getElem i.isLt, State.readReg]

/-! ### The memory view (rule R106) -/

@[simp] theorem State.memoryView_length (s : State) : s.memoryView.length = Config.memSize := by
  rw [State.memoryView, List.length_map, List.length_range]

theorem State.memoryView_getElem? (s : State) (a : Byte) : s.memoryView[a.toNat]? = some (s.memRead a) := by
  rw [State.memoryView, List.getElem?_map, List.getElem?_range (byte_lt_memSize a), Option.map_some, State.memRead]

/-- Settles O54: the register view lists the register file, and the memory view reads the cells at the addresses
below the memory size in order. -/
theorem hostReadsAllStorage : Obligations.HostReadsAllStorage :=
  fun s => ⟨s.registersView_length, s.memoryView_length, s.registersView_getElem?, s.memoryView_getElem?⟩

end Sys2Proof.Machine

/-! SUPPORT. The reset family: what a register and a cell read as after power-on, and the line count of the empty
program. -/

namespace Sys2Proof.Machine

/-- A memory that lists no cell reads as its reset content everywhere. -/
@[simp] theorem Memory.read_nil (a : Nat) : Memory.read [] a = Config.resetMem := rfl

@[simp] theorem State.readReg_reset (i : Fin 8) : State.reset.readReg i = Config.resetReg :=
  Vector.getElem_replicate i.isLt

@[simp] theorem State.memRead_reset (a : Byte) : State.reset.memRead a = Config.resetMem :=
  Memory.read_nil a.toNat

/-- Both reset contents are 0 (D30, assumption 1), so every location reads as 0. -/
theorem State.readLoc_reset (l : Location) : State.reset.readLoc l = 0#8 := by
  cases l with
  | reg i => exact State.readReg_reset i
  | mem a => exact State.memRead_reset a

/-- The empty program is one empty line. -/
@[simp] theorem lineCount_nil : lineCount [] = 1 := rfl

/-- Settles O52: the storage by the reset contents, each control field by its value in the reset state. -/
theorem resetClearsTheMachine : Obligations.ResetClearsTheMachine :=
  ⟨State.readLoc_reset, rfl, rfl, rfl, rfl, rfl, rfl, lineCount_nil⟩

end Sys2Proof.Machine
